-- ==== Sys2Proof/Word.lean ====
section
/-! DEFINITION. The word and byte types of the core. -/

namespace Sys2Proof

/-- A 32-bit word, unsigned (R8). Bit 31 is the most significant (R7). -/
abbrev Word := BitVec 32

/-- A byte: 8 bits, bit 7 the most significant (R7). -/
abbrev Byte := BitVec 8

end Sys2Proof
end

