-- ==== Sys2Proof/Config.lean ====
section
/-! DEFINITION. What an implementation fixes (R6) and the one free value. -/

namespace Sys2Proof

/-- LENW of R6: the width of `MLEN` and of the operand of `START` (R34, R78), at its default (D4). -/
abbrev Config.lenw : Nat := 64

/-- BLKW of R6: the width of `BLK` and `NBLK` (R31, R32), at its default (D4). -/
abbrev Config.blkw : Nat := 56

/-- What the core does when the bit-length exceeds 2^64 - 1 (R6): `fail` raises LengthOverflow;
`truncate` is the alternative the source allows and the spec does not take (D5). -/
inductive OverflowPolicy where
  | fail
  | truncate
  deriving DecidableEq, Repr

/-- OVERFLOW_POLICY of R6, fixed to `fail` by D5. -/
def Config.overflowPolicy : OverflowPolicy := .fail

/-- The highest byte address of the platform's message store. It is OPEN (D26, U11), so it has no body
and no proof can see its value. -/
opaque Config.lastMessageByte : Nat

/-- MSG_CAP of R6: how many bytes the platform's message store holds. DESIGN CHOICE (log 9): it holds at
least one. -/
def Config.msgCap : Nat := Config.lastMessageByte + 1

/-- The free byte drawn as the `n`-th draw (log 4): it has no body, so no proof can see its value.
It stands for a byte the spec calls unspecified (U3) or gives no result (U4). -/
opaque Config.freeByte (n : Nat) : Byte

end Sys2Proof
end

