-- ==== Sys2Proof/Syntax.lean ====
section
/-! DEFINITION. The instructions: the ten micro-operations of the sequencer (R82) and the two host
commands (R86). -/

namespace Sys2Proof

/-- One constructor per operation of the opcode table. `SCHED` has two rows there (t = 16..31 and
t = 32..63) and is one operation (R146). -/
inductive Instr where
  /-- `WAIT`, idle in phase Init (R184). -/
  | wait
  /-- `PAD`, the padder (R121). -/
  | pad
  /-- `LDBLK`, the block parser (R136). -/
  | ldblk
  /-- `SCHED t`, one schedule word, `t` in 16..63 (R146). -/
  | sched (t : BitVec 6)
  /-- `INITWV`, the working variables from the hash state (R156). -/
  | initwv
  /-- `ROUND t`, one compression round, `t` in 0..63 (R157). -/
  | round (t : BitVec 6)
  /-- `ADDBACK`, the working variables added into the hash state (R158). -/
  | addback
  /-- `DIGEST`, the digest written out (R171). -/
  | digest
  /-- `HALT`, idle in phase Done (R185). -/
  | halt
  /-- `FHALT`, idle in phase Fault (R186). -/
  | fhalt
  /-- The host command `START len`, `len` the message length in bytes (R195, R78). -/
  | start (len : BitVec Config.lenw)
  /-- The host command `CLEAR` (R196). -/
  | clear
  deriving DecidableEq, Repr

end Sys2Proof
end

