-- ==== Sys2Proof/WellFormed.lean ====
section
/-! DEFINITION. Which instructions have a word. -/

namespace Sys2Proof

/-- The one check on an operand: `SCHED t` needs `t ≥ 16`, since `op` 3 with `idx` 0..15 is reserved
(R85). Every other operand takes every value of its width. -/
def Instr.wf : Instr → Bool
  | .sched t => decide (16 ≤ t.toNat)
  | .wait | .pad | .ldblk | .initwv | .round _ | .addback | .digest | .halt | .fhalt => true
  | .start _ | .clear => true

end Sys2Proof
end

