-- ==== Sys2Proof/Decode.lean ====
section
/-! DEFINITION. The decoder of the micro-operation word and of the host command word, and after it the
encoder, both from the tables of R82 and R86. -/

namespace Sys2Proof

/-- What an instruction is written as: a micro-operation word (format U, R81) or what stands on the
command port, a command word with its 64-bit operand (format C, R86). -/
inductive Code where
  | micro (u : BitVec 10)
  | command (cmd : BitVec 2) (len : BitVec Config.lenw)
  deriving DecidableEq, Repr

/-- Why a word is no instruction. -/
inductive Reject where
  /-- A micro-operation word that R85 reserves. -/
  | reserved (u : BitVec 10)
  /-- The command word 00: the host does nothing (R86). -/
  | noCommand
  deriving DecidableEq, Repr

/-! The `op` codes of R82. -/

abbrev Op.wait : BitVec 4 := 0
abbrev Op.pad : BitVec 4 := 1
abbrev Op.ldblk : BitVec 4 := 2
abbrev Op.sched : BitVec 4 := 3
abbrev Op.initwv : BitVec 4 := 4
abbrev Op.round : BitVec 4 := 5
abbrev Op.addback : BitVec 4 := 6
abbrev Op.digest : BitVec 4 := 7
abbrev Op.halt : BitVec 4 := 8
abbrev Op.fhalt : BitVec 4 := 9

/-- `UOP[9:6]` (R30). -/
def opOf (u : BitVec 10) : BitVec 4 := u.extractLsb' 6 4

/-- `UOP[5:0]` (R30). -/
def idxOf (u : BitVec 10) : BitVec 6 := u.extractLsb' 0 6

/-- The micro-operations that take no index, by their `op` (R82). -/
def plainMicro (op : BitVec 4) : Option Instr :=
  match op.toNat with
  | 0 => some .wait
  | 1 => some .pad
  | 2 => some .ldblk
  | 4 => some .initwv
  | 6 => some .addback
  | 7 => some .digest
  | 8 => some .halt
  | 9 => some .fhalt
  | _ => none

/-- The decoder of a micro-operation word (R83): total, and every value it does not list is reserved
(R85). -/
def decodeMicro (u : BitVec 10) : Except Reject Instr :=
  if opOf u = Op.sched then
    if 16 ≤ (idxOf u).toNat then .ok (.sched (idxOf u)) else .error (.reserved u)
  else if opOf u = Op.round then .ok (.round (idxOf u))
  else if idxOf u = 0 then
    match plainMicro (opOf u) with
    | some i => .ok i
    | none => .error (.reserved u)
  else .error (.reserved u)

/-- The reserved values of `UOP` (R85): those the decoder answers no micro-operation for. -/
def isReserved (u : BitVec 10) : Bool :=
  match decodeMicro u with
  | .ok _ => false
  | .error _ => true

/-- The decoder of the command port (R86): bit 1 is `clear`, bit 0 is `start`, and clear wins. -/
def decodeCommand (cmd : BitVec 2) (len : BitVec Config.lenw) : Except Reject Instr :=
  if cmd.getLsbD 1 then .ok .clear
  else if cmd.getLsbD 0 then .ok (.start len)
  else .error .noCommand

/-- The decoder of both formats. -/
def decode : Code → Except Reject Instr
  | .micro u => decodeMicro u
  | .command cmd len => decodeCommand cmd len

/-- The word `op · 64 + idx` (R82). -/
def microWord (op : BitVec 4) (idx : BitVec 6) : BitVec 10 :=
  BitVec.ofNat 10 (op.toNat * 64 + idx.toNat)

/-- The encoder, from the same tables. `CLEAR` is written `10`, with the operand, which is ignored, 0;
the word `11` decodes to it as well (R86). -/
def encode : Instr → Code
  | .wait => .micro (microWord Op.wait 0)
  | .pad => .micro (microWord Op.pad 0)
  | .ldblk => .micro (microWord Op.ldblk 0)
  | .sched t => .micro (microWord Op.sched t)
  | .initwv => .micro (microWord Op.initwv 0)
  | .round t => .micro (microWord Op.round t)
  | .addback => .micro (microWord Op.addback 0)
  | .digest => .micro (microWord Op.digest 0)
  | .halt => .micro (microWord Op.halt 0)
  | .fhalt => .micro (microWord Op.fhalt 0)
  | .start len => .command 0b01 len
  | .clear => .command 0b10 0

/-- The word of a row of the opcode table as this decoder's input (log 15): a row of up to 8 bits is a
command word (2 bits wide) with the operand 0, a longer one a micro-operation word (10 bits wide); bits
above the row's own width belong to no word. -/
def tableCode (nbits w : Nat) : Option Code :=
  if nbits ≤ 8 then
    if w < 4 then some (.command (BitVec.ofNat 2 w) 0) else none
  else
    if w < 1024 then some (.micro (BitVec.ofNat 10 w)) else none

/-- The instruction the decoder reads from the word of a row of the opcode table. -/
def decodeTableWord (nbits w : Nat) : Option Instr :=
  match tableCode nbits w with
  | some c => (decode c).toOption
  | none => none

end Sys2Proof
end

