-- ==== Sys2Proof/Machine/State.lean ====
section
/-! DEFINITION. The state of one core instance and of the host beside it, as plain data, its value
after reset, and the reasons a step can stop. -/

namespace Sys2Proof.Machine

/-- A byte space (R36): the bytes that have been written, by address, addresses strictly rising. -/
abbrev Memory := List Host.Cell

/-- What an address that is not listed reads as: no value (R40; log 3). -/
def Memory.unlisted : Option Byte := none

/-- The canonical form: addresses strictly rising. No entry can equal what an unlisted address reads
as, since that is no value. -/
abbrev Memory.wf (m : Memory) : Prop := m.Pairwise fun x y => x.1 < y.1

/-- The eight working variables (R22). -/
structure WorkingState where
  a : Word
  b : Word
  c : Word
  d : Word
  e : Word
  f : Word
  g : Word
  h : Word
  deriving DecidableEq, Repr

/-- The error kind `ERR` holds (R34, R211); the codes 2 and 3 are never written, so they have no
constructor (U6). -/
inductive ErrorKind where
  | noError
  | lengthOverflow
  deriving DecidableEq, Repr

/-- The phases (R35): the source's four and `fault`. -/
inductive Phase where
  | init
  | padding
  | perBlockProcessing
  | done
  | fault
  deriving DecidableEq, Repr

/-- What stands on the core's inputs at one moment (R215): the reset input, the command word
(`clear` in bit 1, `start` in bit 0, R86) with its operand, and whether the sequencer makes a step at
this moment too. -/
structure Moment where
  reset : Bool
  cmd : BitVec 2
  len : BitVec Config.lenw
  sequencer : Bool
  deriving DecidableEq, Repr

/-- A move of the host that is still to come. -/
inductive HostMove where
  /-- The core's inputs at one moment: reset (R200), a command (R195, R196), the sequencer's turn. -/
  | inputs (m : Moment)
  /-- Message write (R199). -/
  | writeMessage (addr : Nat) (value : Byte)
  /-- Status read (R197). -/
  | readStatus
  /-- Digest read (R198): any of the 32 bytes. -/
  | readDigest (n : Fin 32)
  deriving DecidableEq, Repr

/-- What a read returns to the host. -/
inductive Observation where
  /-- Status read: `PHASE` (3 bits), `busy`, `done`, `fault` (1 bit each), `ERR` (2 bits) (R197). -/
  | status (phase : BitVec 3) (busy done fault : Bool) (err : BitVec 2)
  /-- Digest read: the byte `DG[n]`. -/
  | digestByte (n : Fin 32) (value : Byte)
  deriving DecidableEq, Repr

/-- The state: every piece that R20 names, then the host's moves and the model's own fields. `K` and
`IV` are constants (R21). -/
structure State where
  /-- `a .. h`, 32 bits each (R22). -/
  wv : WorkingState
  /-- `H[0..7]`, the HashState (R26). -/
  H : Vector Word 8
  /-- `W[0..63]`, the ScheduleWords (R27). -/
  W : Vector Word 64
  /-- `UOP`, the sequencer position, the pc (R30). -/
  uop : BitVec 10
  /-- `BLK`, the index of the current block (R31). -/
  blk : BitVec Config.blkw
  /-- `NBLK`, the number of blocks (R32). -/
  nblk : BitVec Config.blkw
  /-- `PLEN`, the padded length in bytes (R32); with LENW = 64 it needs 62 bits (R33). -/
  plen : BitVec 62
  /-- `MLEN`, the message length in bytes (R34). -/
  mlen : BitVec Config.lenw
  /-- `ERR`, the error kind (R34). -/
  err : ErrorKind
  /-- `MSG`, the Message, owned by the host (R50). -/
  msg : Memory
  /-- `PM`, the PaddedMessage (R51). -/
  pm : Memory
  /-- `DG`, the digest (R52). -/
  dg : Memory
  /-- The host's moves still to come, oldest first; with none left the sequencer runs freely (log 6). -/
  moves : List HostMove
  /-- What the host's last read returned (log 8). -/
  seen : Option Observation
  /-- How many free bytes have been drawn (log 4). -/
  draws : Nat
  /-- The message was written after this run's accepted START, so its digest is a free value
  (R250; log 5). -/
  hazard : Bool
  deriving DecidableEq, Repr

/-- A fault: the machine stops. -/
inductive Fault where
  /-- Raised by `PAD` when a byte of `MSG[0..L-1]` holds no value: `START` stated a length greater than
  what the host wrote (R253, U7). Safe. -/
  | unwrittenMessageByte
  /-- Raised by `LDBLK` when a byte of the block holds no value (R40, U5); no run from reset reaches it,
  since `PAD` has written every byte below `PLEN`. Safe. -/
  | unwrittenPaddedByte
  deriving DecidableEq, Repr

/-- A refusal: no meaning. -/
inductive Refusal where
  /-- Raised by the dispatcher for an instruction that has no meaning yet. Safe. -/
  | notModelled (mnemonic : String)
  /-- Raised by every step in a state whose `UOP` is reserved, whatever the host does (R85, U2); and, as
  terms that no step reaches, by `SCHED t` with `t < 16` and by a status read where `UOP.op` has no phase
  (log 11). No run from reset reaches it. Safe. -/
  | reservedMicroOp
  /-- Raised by `LDBLK` when `BLK < NBLK` does not hold or the block does not lie below `PLEN`: R58
  keeps this as an assertion and refuses; no run from reset reaches it. Safe. -/
  | blockOutOfRange
  /-- Raised by a message write outside the platform's message store: refused at the boundary (D26;
  log 9). Safe. -/
  | outsideMessageStore
  deriving DecidableEq, Repr

/-- The machine right after reset (R41). `UOP`, `BLK`, `ERR`, `PM` and `DG` are as R41 says; the
registers it leaves unspecified hold the values log 1 and log 2 name. -/
def State.reset : State where
  wv := { a := 0, b := 0, c := 0, d := 0, e := 0, f := 0, g := 0, h := 0 }
  H := Vector.replicate 8 0
  W := Vector.replicate 64 0
  uop := 0
  blk := 0
  nblk := 1
  plen := 64
  mlen := 0
  err := .noError
  msg := []
  pm := []
  dg := []
  moves := []
  seen := none
  draws := 0
  hazard := false

end Sys2Proof.Machine
end

