-- ==== Sys2Proof/Machine/Ops.lean ====
section
/-! DEFINITION. The named operations over byte spaces and registers: byte order, reading and writing
bytes and words, the write of the pc, drawing free bytes, taking the one exception and the way back to
the reset state. -/

namespace Sys2Proof.Machine

/-! ### Byte order (R9, R54) -/

/-- `be32(b0, b1, b2, b3)` = `b0·2^24 + b1·2^16 + b2·2^8 + b3` (R9). -/
def be32 (b0 b1 b2 b3 : Byte) : Word :=
  BitVec.ofNat 32 (b0.toNat * 2 ^ 24 + b1.toNat * 2 ^ 16 + b2.toNat * 2 ^ 8 + b3.toNat)

/-- `bytes_be32(x)`: bits 31:24, 23:16, 15:8, 7:0 in that order (R9). -/
def bytesBe32 (x : Word) : List Byte :=
  [x.extractLsb' 24 8, x.extractLsb' 16 8, x.extractLsb' 8 8, x.extractLsb' 0 8]

/-- `bytes_be64(n)`: the eight bytes of a 64-bit value, most significant first (R9). -/
def bytesBe64 (n : BitVec 64) : List Byte :=
  [n.extractLsb' 56 8, n.extractLsb' 48 8, n.extractLsb' 40 8, n.extractLsb' 32 8,
   n.extractLsb' 24 8, n.extractLsb' 16 8, n.extractLsb' 8 8, n.extractLsb' 0 8]

/-! ### Byte spaces (R10, R50 to R53) -/

/-- One byte of a byte space; an address that nothing has written reads as `Memory.unlisted`. -/
def Memory.read : Memory → Nat → Option Byte
  | [], _ => Memory.unlisted
  | (k, v) :: rest, a => if k = a then some v else Memory.read rest a

/-- Write one byte, in the place its address has in the rising order. -/
def Memory.write : Memory → Nat → Byte → Memory
  | [], a, b => [(a, b)]
  | (k, v) :: rest, a, b =>
    if a < k then (a, b) :: (k, v) :: rest
    else if a = k then (a, b) :: rest
    else (k, v) :: Memory.write rest a b

/-- `MemRead(S:addr, n)` (R10); no value where one of the bytes holds none. -/
def Memory.readBytes (m : Memory) (a : Nat) : Nat → Option (List Byte)
  | 0 => some []
  | n + 1 =>
    match Memory.read m a with
    | none => none
    | some b =>
      match Memory.readBytes m (a + 1) n with
      | none => none
      | some bs => some (b :: bs)

/-- `MemWrite(S:addr, n, v)` with `n` the length of `v` (R10). -/
def Memory.writeBytes (m : Memory) (a : Nat) : List Byte → Memory
  | [] => m
  | b :: bs => Memory.writeBytes (Memory.write m a b) (a + 1) bs

/-- Four bytes of a byte sequence as one big-endian word, and so on: `n` words (R70, R71); no value
where the sequence is too short. -/
def wordsOfBytes : Nat → List Byte → Option (List Word)
  | 0, _ => some []
  | n + 1, b0 :: b1 :: b2 :: b3 :: rest =>
    match wordsOfBytes n rest with
    | none => none
    | some ws => some (be32 b0 b1 b2 b3 :: ws)
  | _ + 1, _ => none

/-- `n` consecutive big-endian words from address `a` (R56, R70). -/
def Memory.readWords (m : Memory) (a n : Nat) : Option (List Word) :=
  match Memory.readBytes m a (4 * n) with
  | none => none
  | some bs => wordsOfBytes n bs

/-! ### Registers -/

/-- `pc <- (op, idx)` (R10, R30). -/
def State.goto (s : State) (op : BitVec 4) (idx : BitVec 6) : State :=
  { s with uop := microWord op idx }

/-- `(a, b, c, d, e, f, g, h)` by index: `a` = 0 up to `h` = 7 (R22). -/
def WorkingState.toVector (v : WorkingState) : Vector Word 8 :=
  #v[v.a, v.b, v.c, v.d, v.e, v.f, v.g, v.h]

/-- The eight working variables from eight words, in the order of R22. -/
def WorkingState.ofVector (x : Vector Word 8) : WorkingState where
  a := x[0]
  b := x[1]
  c := x[2]
  d := x[3]
  e := x[4]
  f := x[5]
  g := x[6]
  h := x[7]

/-- `W[j] <- ws[j]` for every `j` below the length of `ws`; the other schedule words keep their
values. -/
def setLowWords (w : Vector Word 64) (ws : List Word) : Vector Word 64 :=
  Vector.ofFn fun j => ws.getD j.val w[j]

/-! ### Free values -/

/-- `n` free bytes, each drawn afresh (log 4). -/
def State.freeBytes (s : State) (n : Nat) : List Byte :=
  (List.range n).map fun k => Config.freeByte (s.draws + k)

/-- The counter after `n` draws (log 4). -/
def State.advanceDraws (s : State) (n : Nat) : State := { s with draws := s.draws + n }

/-! ### The one exception (R210 to R214) -/

/-- `raise LengthOverflow`: `ERR <- 1`, `pc <- (FHALT, 0)` and nothing else (R213). There is no saved
pc, no vector and no mode change. -/
def State.raiseLengthOverflow (s : State) : State :=
  ({ s with err := .lengthOverflow }).goto Op.fhalt 0

/-- The effect of reset (R240), of `CLEAR` (R196), and so the only way out of Fault (R214): the core's
state is the reset state of R41 and `MSG` is not touched. The host's side goes on: its moves still to
come, what it has read, and the counter of free values. -/
def State.toReset (s : State) : State :=
  { State.reset with msg := s.msg, moves := s.moves, seen := s.seen, draws := s.draws }

end Sys2Proof.Machine
end

