-- ==== Sys2Proof/Machine/Operands.lean ====
section
/-! DEFINITION. The operand forms: the index of a micro-operation, the block address, the message
length (R77, R78, R137). -/

namespace Sys2Proof.Machine

/-- `t = zext(UOP[5:0])`: unsigned, neither extended nor scaled (R77). -/
def indexOperand (idx : BitVec 6) : Nat := idx.toNat

/-- The byte address of the current block, `64 · BLK` (R71, R137). -/
def State.blockAddress (s : State) : Nat := 64 * s.blk.toNat

/-- `L`, the message length in bytes, which `PAD` reads from `MLEN` (R34, R78). -/
def State.messageLength (s : State) : Nat := s.mlen.toNat

/-- `0 <= BLK < NBLK`, and so the whole block lies below `PLEN`: the address check of `LDBLK` (R32,
R58, R136; log 10). -/
def State.blockInRange (s : State) : Bool :=
  decide (s.blk.toNat < s.nblk.toNat) && decide (s.blockAddress + 64 ≤ s.plen.toNat)

end Sys2Proof.Machine
end

