-- ==== Sys2Proof/Machine/BlockParser.lean ====
section
/-! DEFINITION. The BlockParser: `LDBLK` (R135 to R140). -/

namespace Sys2Proof.Machine

/-- `LDBLK` (R136): the sixteen big-endian words at `64 · BLK` go to `W[0..15]`. Outside `0 <= BLK <
NBLK` it is refused (R58); a byte that holds no value is a fault (U5). -/
def execLdblk (s : State) : Host.Outcome State Fault Refusal :=
  if s.blockInRange then
    match Memory.readWords s.pm s.blockAddress 16 with
    | none => .fault .unwrittenPaddedByte
    | some block => .next (({ s with W := setLowWords s.W block }).goto Op.sched 16)
  else .refused .blockOutOfRange

end Sys2Proof.Machine
end

