-- ==== Sys2Proof/Machine/WordOps.lean ====
section
/-! DEFINITION. The combinational functions of the datapath (R100 to R113). Word addition is `+` of
`BitVec 32` (R100), XOR `^^^` (R101), AND `&&&` (R102), NOT `~~~` (R103). -/

namespace Sys2Proof.Machine

/-- `rotr(x, n)`, circular right rotation; the amount counts modulo 32 (R104). -/
def rotr (x : Word) (n : Nat) : Word := x.rotateRight n

/-- `x >> n`, logical right shift (R105). -/
def shr (x : Word) (n : Nat) : Word := x >>> n

/-- `s0` of the scheduler: two rotations and a shift (R108). -/
def s0 (x : Word) : Word := rotr x 7 ^^^ rotr x 18 ^^^ shr x 3

/-- `s1` of the scheduler: two rotations and a shift (R109). -/
def s1 (x : Word) : Word := rotr x 17 ^^^ rotr x 19 ^^^ shr x 10

/-- `S0` of the compressor: three rotations (R110). -/
def S0 (x : Word) : Word := rotr x 2 ^^^ rotr x 13 ^^^ rotr x 22

/-- `S1` of the compressor: three rotations (R111). -/
def S1 (x : Word) : Word := rotr x 6 ^^^ rotr x 11 ^^^ rotr x 25

/-- `ch`, choose (R112). -/
def ch (e f g : Word) : Word := (e &&& f) ^^^ (~~~e &&& g)

/-- `maj`, majority (R113). -/
def maj (a b c : Word) : Word := (a &&& b) ^^^ (a &&& c) ^^^ (b &&& c)

end Sys2Proof.Machine
end

