-- ==== Sys2Proof/Machine/Compressor.lean ====
section
/-! DEFINITION. The Compressor: `INITWV`, `ROUND t`, `ADDBACK` (R155 to R161). -/

namespace Sys2Proof.Machine

/-- `INITWV` (R156). -/
def execInitwv (s : State) : Host.Outcome State Fault Refusal :=
  .next (({ s with wv := WorkingState.ofVector s.H }).goto Op.round 0)

/-- `temp1` of a round (R157). -/
def temp1 (v : WorkingState) (k w : Word) : Word := v.h + S1 v.e + ch v.e v.f v.g + k + w

/-- `temp2` of a round (R157). -/
def temp2 (v : WorkingState) : Word := S0 v.a + maj v.a v.b v.c

/-- One round: every right-hand side uses the values from before the round (R157). -/
def compressRound (v : WorkingState) (k w : Word) : WorkingState where
  a := temp1 v k w + temp2 v
  b := v.a
  c := v.b
  d := v.c
  e := v.d + temp1 v k w
  f := v.e
  g := v.f
  h := v.g

/-- `ROUND t` (R157). -/
def execRound (t : BitVec 6) (s : State) : Host.Outcome State Fault Refusal :=
  let k := K[indexOperand t]'t.isLt
  let w := s.W[indexOperand t]'t.isLt
  let s' := { s with wv := compressRound s.wv k w }
  .next (if indexOperand t < 63 then s'.goto Op.round (t + 1) else s'.goto Op.addback 0)

/-- The add-back sums: each wraps by itself (R158). -/
def addBack (H : Vector Word 8) (v : WorkingState) : Vector Word 8 :=
  #v[H[0] + v.a, H[1] + v.b, H[2] + v.c, H[3] + v.d, H[4] + v.e, H[5] + v.f, H[6] + v.g, H[7] + v.h]

/-- `ADDBACK` (R158). The comparison is of natural numbers (R10): the new `BLK`, before it is narrowed
to its BLKW bits, with `NBLK` (log 10). -/
def execAddback (s : State) : Host.Outcome State Fault Refusal :=
  let next := s.blk.toNat + 1
  let s' := { s with H := addBack s.H s.wv, blk := BitVec.ofNat Config.blkw next }
  .next (if next < s.nblk.toNat then s'.goto Op.ldblk 0 else s'.goto Op.digest 0)

end Sys2Proof.Machine
end

