-- ==== Sys2Proof/Machine/DigestAssembler.lean ====
section
/-! DEFINITION. The Digest Assembler: `DIGEST` (R170 to R174). -/

namespace Sys2Proof.Machine

/-- `digest(H)`: the eight words, big-endian, in order (R174). -/
def digestBytes (H : Vector Word 8) : List Byte :=
  bytesBe32 H[0] ++ bytesBe32 H[1] ++ bytesBe32 H[2] ++ bytesBe32 H[3] ++
    bytesBe32 H[4] ++ bytesBe32 H[5] ++ bytesBe32 H[6] ++ bytesBe32 H[7]

/-- `DIGEST` (R171). Where the message was written during the run, the digest is a free value (R250;
log 5). -/
def execDigest (s : State) : Host.Outcome State Fault Refusal :=
  if s.hazard then
    .next ((({ s with dg := Memory.writeBytes s.dg 0 (s.freeBytes 32) }).advanceDraws 32).goto Op.halt 0)
  else
    .next (({ s with dg := Memory.writeBytes s.dg 0 (digestBytes s.H) }).goto Op.halt 0)

end Sys2Proof.Machine
end

