-- ==== Sys2Proof/Machine/HostCommands.lean ====
section
/-! DEFINITION. The host commands `START` and `CLEAR` (R195, R196). -/

namespace Sys2Proof.Machine

/-- `START len` (R195): accepted in `(WAIT, 0)` only; anywhere else nothing changes. The new run's
message has not been written during it (log 5). -/
def execStart (len : BitVec Config.lenw) (s : State) : Host.Outcome State Fault Refusal :=
  if s.uop = microWord Op.wait 0 then
    .next (({ s with mlen := len, H := IV, blk := 0, err := .noError, hazard := false }).goto Op.pad 0)
  else .next s

/-- `CLEAR` (R196): the reset state, in every phase, `MSG` untouched. -/
def execClear (s : State) : Host.Outcome State Fault Refusal := .next s.toReset

end Sys2Proof.Machine
end

