-- ==== Sys2Proof/Machine/Idle.lean ====
section
/-! DEFINITION. The three idle micro-operations of the sequencer (R184 to R186). -/

namespace Sys2Proof.Machine

/-- `WAIT` (R184). -/
def execWait (s : State) : Host.Outcome State Fault Refusal := .next (s.goto Op.wait 0)

/-- `HALT` (R185). -/
def execHalt (s : State) : Host.Outcome State Fault Refusal := .next (s.goto Op.halt 0)

/-- `FHALT` (R186). -/
def execFhalt (s : State) : Host.Outcome State Fault Refusal := .next (s.goto Op.fhalt 0)

end Sys2Proof.Machine
end

