-- ==== Sys2Proof/Machine/Padder.lean ====
section
/-! DEFINITION. The BitPadder: `PAD` (R120 to R128). -/

namespace Sys2Proof.Machine

/-- `k = (55 - L) mod 64`, the number of zero bytes, with the mod of R10, whose value is in 0..63 also
where `55 - L` is below zero (R121). -/
def zeroFill (L : Nat) : Nat := ((55 - (L : Int)) % 64).toNat

/-- `P = L + 1 + k + 8` (R121). -/
def paddedLength (L : Nat) : Nat := L + 1 + zeroFill L + 8

/-- `NBLK = P / 64` (R121). -/
def blockCount (L : Nat) : Nat := paddedLength L / 64

/-- The padded message: the message, `0x80`, the zero fill and the length field (R72, R121). -/
def padBytes (message : List Byte) : List Byte :=
  message ++ [0x80] ++ List.replicate (zeroFill message.length) 0x00 ++
    bytesBe64 (BitVec.ofNat 64 (8 * message.length))

/-- The overflow guard, on the natural number `8 · L` (R124), with the policy of R6. -/
def overflows (L : Nat) : Bool :=
  decide (Config.overflowPolicy = .fail) && decide (8 * L > 2 ^ 64 - 1)

/-- `PAD` (R121). `PM` is written whole: it holds the padded message and nothing else (R51, R69). A
message byte that holds no value is a fault (R253, U7). -/
def execPad (s : State) : Host.Outcome State Fault Refusal :=
  if overflows s.messageLength then .next s.raiseLengthOverflow
  else
    match Memory.readBytes s.msg 0 s.messageLength with
    | none => .fault .unwrittenMessageByte
    | some message =>
      .next (({ s with
        pm := Memory.writeBytes [] 0 (padBytes message)
        plen := BitVec.ofNat 62 (paddedLength s.messageLength)
        nblk := BitVec.ofNat Config.blkw (blockCount s.messageLength) }).goto Op.ldblk 0)

end Sys2Proof.Machine
end

