-- ==== Sys2Proof/Machine/Scheduler.lean ====
section
/-! DEFINITION. The MessageScheduler: `SCHED t` (R145 to R151). -/

namespace Sys2Proof.Machine

/-- The word `SCHED t` computes, from the taps `t-16`, `t-15`, `t-7` and `t-2` (R146). -/
def scheduleWord (w : Vector Word 64) (t : Nat) (ht : t < 64) : Word :=
  w[t - 16] + s0 w[t - 15] + w[t - 7] + s1 w[t - 2]

/-- `SCHED t` (R146). For `t` in 0..15 there is no such micro-operation: the encoding is reserved
(R85), and the term is refused as well (log 11). -/
def execSched (t : BitVec 6) (s : State) : Host.Outcome State Fault Refusal :=
  if 16 ≤ indexOperand t then
    let s' := { s with W := s.W.set (indexOperand t) (scheduleWord s.W (indexOperand t) t.isLt) t.isLt }
    .next (if indexOperand t < 63 then s'.goto Op.sched (t + 1) else s'.goto Op.initwv 0)
  else .refused .reservedMicroOp

end Sys2Proof.Machine
end

