-- ==== Sys2Proof/Machine/Dispatch.lean ====
section
/-! DEFINITION. The dispatcher: one arm per instruction, each a call of its meaning. -/

namespace Sys2Proof.Machine

def exec (i : Instr) (s : State) : Host.Outcome State Fault Refusal :=
  match i with
  | .wait => Sys2Proof.Machine.execWait s
  | .pad => Sys2Proof.Machine.execPad s
  | .ldblk => Sys2Proof.Machine.execLdblk s
  | .sched t => Sys2Proof.Machine.execSched t s
  | .initwv => Sys2Proof.Machine.execInitwv s
  | .round t => Sys2Proof.Machine.execRound t s
  | .addback => Sys2Proof.Machine.execAddback s
  | .digest => Sys2Proof.Machine.execDigest s
  | .halt => Sys2Proof.Machine.execHalt s
  | .fhalt => Sys2Proof.Machine.execFhalt s
  | .start len => Sys2Proof.Machine.execStart len s
  | .clear => Sys2Proof.Machine.execClear s

end Sys2Proof.Machine
end

