-- ==== Sys2Proof/Machine/Fetch.lean ====
section
/-! DEFINITION. What the next step does: the refusal of a reserved `UOP` (R85), and the choice between the
host's next move and the sequencer, in the order of R215, with the moves that are then still to come. -/

namespace Sys2Proof.Machine

/-- What one step does. -/
inductive Action where
  /-- Perform an instruction: the micro-operation in `UOP` or the host's command. -/
  | perform (i : Instr)
  /-- `UOP` holds a reserved value. -/
  | reserved
  /-- The host does nothing at this moment (the command word 00, R86). -/
  | nothing
  /-- The reset input is asserted. -/
  | reset
  /-- A message write. -/
  | writeMessage (addr : Nat) (value : Byte)
  /-- A status read. -/
  | readStatus
  /-- A digest read. -/
  | readDigest (n : Fin 32)
  deriving DecidableEq, Repr

/-- A decoder's answer as what a step does: no command is nothing to do, a reserved value is refused. -/
def actionOf : Except Reject Instr → Action
  | .ok i => .perform i
  | .error .noCommand => .nothing
  | .error (.reserved _) => .reserved

/-- What is left of a moment once its `CLEAR` has been performed: the sequencer's step, if it makes one
(R215); a `START` in the same word is dropped (R86). -/
def Moment.afterClear (m : Moment) : List HostMove :=
  if m.sequencer then [.inputs { m with cmd := 0 }] else []

/-- What is left of a moment once the sequencer has made its step: the `START`, if there is one
(R215). -/
def Moment.afterSequencer (m : Moment) : List HostMove :=
  if m.cmd.getLsbD 0 then [.inputs { m with sequencer := false }] else []

/-- The order at one moment (R215): reset first, and it wins over everything else (R200); then `CLEAR`;
then the sequencer's step; a `START` last. Answers what is done now, and what is left of the moment. -/
def Moment.first (m : Moment) (uop : BitVec 10) : Action × List HostMove :=
  if m.reset then (.reset, [])
  else if m.cmd.getLsbD 1 then (actionOf (decodeCommand m.cmd m.len), m.afterClear)
  else if m.sequencer then (actionOf (decodeMicro uop), m.afterSequencer)
  else (actionOf (decodeCommand m.cmd m.len), [])

/-- The next move, the host's or the sequencer's, and the host's moves that are then still to come. With
none pending the sequencer performs the micro-operation in `UOP` (R182). -/
def State.nextMove (s : State) : Action × List HostMove :=
  match s.moves with
  | [] => (actionOf (decodeMicro s.uop), [])
  | .inputs m :: rest => ((m.first s.uop).1, (m.first s.uop).2 ++ rest)
  | .writeMessage addr value :: rest => (.writeMessage addr value, rest)
  | .readStatus :: rest => (.readStatus, rest)
  | .readDigest n :: rest => (.readDigest n, rest)

/-- The next action, and the host's moves that are then still to come. A state whose `UOP` is reserved is
refused whatever the host does: it has no next state (R85, U2). -/
def State.nextAction (s : State) : Action × List HostMove :=
  if isReserved s.uop then (.reserved, s.moves) else s.nextMove

end Sys2Proof.Machine
end

