-- ==== Sys2Proof/Machine/Flags.lean ====
section
/-! DEFINITION. The derived status outputs (R35, R90). The core has no carry, zero, sign or overflow
flag and no condition code, and no micro-operation writes a flag (R25). -/

namespace Sys2Proof.Machine

/-- The phase of an `op` code (R35); `op` 10 to 15 occur in no row. -/
def phaseOf (op : BitVec 4) : Option Phase :=
  match op.toNat with
  | 0 => some .init
  | 1 => some .padding
  | 2 | 3 | 4 | 5 | 6 => some .perBlockProcessing
  | 7 | 8 => some .done
  | 9 => some .fault
  | _ => none

/-- The `PHASE` codes (R90). -/
def phaseCode : Phase → BitVec 3
  | .init => 0
  | .padding => 1
  | .perBlockProcessing => 2
  | .done => 3
  | .fault => 4

/-- The `ERR` codes (R90, R211). -/
def errorCode : ErrorKind → BitVec 2
  | .noError => 0
  | .lengthOverflow => 1

/-- `PHASE`, a function of `UOP.op` (R35). -/
def State.phase (s : State) : Option Phase := phaseOf (opOf s.uop)

/-- `busy`: 1 for the `op` codes of `PAD` to `DIGEST` (R35). -/
def State.busy (s : State) : Bool := decide (1 ≤ (opOf s.uop).toNat) && decide ((opOf s.uop).toNat ≤ 7)

/-- `done`: 1 for `HALT` only (R35). -/
def State.done (s : State) : Bool := decide (opOf s.uop = Op.halt)

/-- `fault`: 1 for `FHALT` only (R35). -/
def State.fault (s : State) : Bool := decide (opOf s.uop = Op.fhalt)

end Sys2Proof.Machine
end

