-- ==== Sys2Proof/Machine/HostAccess.lean ====
section
/-! DEFINITION. The host's accesses that are no command: reset, message write, status read, digest read
(R197 to R200). -/

namespace Sys2Proof.Machine

/-- Reset (R200, R240): the effect of `CLEAR`. -/
def hostReset (s : State) : Host.Outcome State Fault Refusal := .next s.toReset

/-- A message write outside Init (R199, R250; log 5): the byte written holds a free value, and the
result of the run is a free value: with `done` = 1 the digest that stands in `DG`, before that the digest
that `DIGEST` will write. `ERR` and `UOP` do not change (R217). -/
def writeDuringRun (s : State) (addr : Nat) : State :=
  { s with
    msg := Memory.write s.msg addr (Config.freeByte s.draws)
    dg := if s.done then Memory.writeBytes s.dg 0 ((s.advanceDraws 1).freeBytes 32) else s.dg
    hazard := true
    draws := s.draws + 33 }

/-- Message write (R199): any byte of the message store, in Init; outside the store it is refused at
the boundary (D26). -/
def hostWriteMessage (addr : Nat) (value : Byte) (s : State) : Host.Outcome State Fault Refusal :=
  if addr < Config.msgCap then
    if s.phase = some .init then .next { s with msg := Memory.write s.msg addr value }
    else .next (writeDuringRun s addr)
  else .refused .outsideMessageStore

/-- Status read (R197): returns the outputs of this moment and changes nothing; a value of `UOP.op` that
has no phase is reserved (R85), and the step has refused it before the read (log 11). -/
def hostReadStatus (s : State) : Host.Outcome State Fault Refusal :=
  match s.phase with
  | some p =>
    .next { s with seen := some (.status (phaseCode p) s.busy s.done s.fault (errorCode s.err)) }
  | none => .refused .reservedMicroOp

/-- The byte a digest read returns, if the machine holds one: the byte in `DG` while `done` = 1
(R198). -/
def State.digestByte (s : State) (n : Fin 32) : Option Byte :=
  if s.done then Memory.read s.dg n.val else none

/-- Digest read (R198): while `done` = 1 the byte `DIGEST` wrote; otherwise the value is unspecified, a
free byte (U3). -/
def hostReadDigest (n : Fin 32) (s : State) : Host.Outcome State Fault Refusal :=
  match s.digestByte n with
  | some b => .next { s with seen := some (.digestByte n b) }
  | none => .next (({ s with seen := some (.digestByte n (Config.freeByte s.draws)) }).advanceDraws 1)

end Sys2Proof.Machine
end

