-- ==== Sys2Proof/Machine/Step.lean ====
section
/-! DEFINITION. One step (R14): one micro-operation of the sequencer or one move of the host; and how an
instruction is put where the next step takes it. -/

namespace Sys2Proof.Machine

/-- Perform an action in a state from which its move has been taken. -/
def perform (a : Action) (s : State) : Host.Outcome State Fault Refusal :=
  match a with
  | .perform i => exec i s
  | .reserved => .refused .reservedMicroOp
  | .nothing => .next s
  | .reset => hostReset s
  | .writeMessage addr value => hostWriteMessage addr value s
  | .readStatus => hostReadStatus s
  | .readDigest n => hostReadDigest n s

/-- One step of the machine (R14, R182, R215). -/
def step (s : State) : Host.Outcome State Fault Refusal :=
  perform s.nextAction.1 { s with moves := s.nextAction.2 }

/-- `s` with an instruction's code placed where the next step takes it (log 15): a micro-operation word
in `UOP`, with the sequencer's turn first where the host has moves to come; a command on the command
port, at a moment at which the sequencer makes no step. -/
def State.withCode (s : State) : Code → State
  | .micro u =>
    match s.moves with
    | [] => { s with uop := u }
    | m :: ms =>
      { s with
        uop := u
        moves := .inputs { reset := false, cmd := 0, len := 0, sequencer := true } :: m :: ms }
  | .command cmd len =>
    { s with moves := .inputs { reset := false, cmd := cmd, len := len, sequencer := false } :: s.moves }

/-- `s` with the word of a row of the opcode table placed (log 15); a number that is no word of the
row's width is placed as the reserved value 0x3FF. -/
def State.withFetchWord (s : State) (nbits w : Nat) : State :=
  match tableCode nbits w with
  | some c => s.withCode c
  | none => s.withCode (.micro 0x3FF)

end Sys2Proof.Machine
end

