-- ==== Sys2Proof/Machine/HashFunction.lean ====
section
/-! DEFINITION. The functions the component files state in closed form: the schedule of a block (R150),
the compression of a block (R161), the chaining (R162) and the whole hash (R204). No instruction uses
them; claims do. -/

namespace Sys2Proof.Machine

/-- `W` after `SCHED 16` to `SCHED (15 + n)`, in increasing order (R146); the index is kept below 64. -/
def expandWords (w : Vector Word 64) : Nat → Vector Word 64
  | 0 => w
  | n + 1 =>
    let v := expandWords w n
    if h : 16 + n < 64 then v.set (16 + n) (scheduleWord v (16 + n) h) h else v

/-- `schedule(b)`: the sixteen block words, then the 48 words of R146 (R150). -/
def schedule (block : List Word) : Vector Word 64 :=
  expandWords (setLowWords (Vector.replicate 64 0) block) 48

/-- The working variables after `ROUND 0` to `ROUND (n - 1)` (R157). -/
def rounds (v : WorkingState) (w : Vector Word 64) : Nat → WorkingState
  | 0 => v
  | n + 1 => if h : n < 64 then compressRound (rounds v w n) K[n] w[n] else rounds v w n

/-- `compress(H, W)` (R161). -/
def compress (H : Vector Word 8) (w : Vector Word 64) : Vector Word 8 :=
  addBack H (rounds (WorkingState.ofVector H) w 64)

/-- Block `i` of a padded message: the sixteen big-endian words at `64 · i` (R71, R136); empty where the
message is too short for it. -/
def blockWords (padded : List Byte) (i : Nat) : List Word :=
  (wordsOfBytes 16 (padded.drop (64 * i))).getD []

/-- `H_n`: the HashState after `n` blocks of a padded message (R162, R204). -/
def chain (padded : List Byte) : Nat → Vector Word 8
  | 0 => IV
  | n + 1 => compress (chain padded n) (schedule (blockWords padded n))

/-- `hash(M)` (R204). -/
def hashOf (message : List Byte) : List Byte :=
  digestBytes (chain (padBytes message) (blockCount message.length))

end Sys2Proof.Machine
end

