-- ==== Sys2Proof/Safety.lean ====
section
/-! DEFINITION. The terms in which claims about the machine are made: the legal values of `UOP`, what a
run's end is, and the invariants of R183. -/

namespace Sys2Proof.Safety

open Sys2Proof.Machine

/-- The 120 legal values of `UOP`, listed as R84 lists them. -/
abbrev LegalUop (u : BitVec 10) : Prop :=
  u = 0x000 ∨ u = 0x040 ∨ u = 0x080 ∨ (0x0D0 ≤ u.toNat ∧ u.toNat ≤ 0x0FF) ∨ u = 0x100 ∨
    (0x140 ≤ u.toNat ∧ u.toNat ≤ 0x17F) ∨ u = 0x180 ∨ u = 0x1C0 ∨ u = 0x200 ∨ u = 0x240

/-- The reserved values of `UOP`, listed as R85 lists them, on the numbers `op` = u / 64 and `idx` = u mod
64. -/
abbrev ReservedUop (u : BitVec 10) : Prop :=
  10 ≤ u.toNat / 64 ∨ (u.toNat / 64 = 3 ∧ u.toNat % 64 ≤ 15) ∨
    (u.toNat / 64 ∈ [0, 1, 2, 4, 6, 7, 8, 9] ∧ u.toNat % 64 ≠ 0)

/-- The micro-operations of the sequencer, as against the host's commands (R80, R86). -/
def isMicro : Instr → Bool
  | .wait | .pad | .ldblk | .sched _ | .initwv | .round _ | .addback | .digest | .halt | .fhalt => true
  | .start _ | .clear => false

/-- A run ended in success: `UOP` = `(HALT, 0)` (R190). -/
abbrev Succeeded (s : State) : Prop := s.uop = 0x200

/-- A run ended in failure: `UOP` = `(FHALT, 0)` (R190). -/
abbrev Failed (s : State) : Prop := s.uop = 0x240

/-- The moment at which the host gives one command and the sequencer makes no step. -/
def command (cmd : BitVec 2) (len : BitVec Config.lenw) : HostMove :=
  .inputs { reset := false, cmd := cmd, len := len, sequencer := false }

/-- `Holds m a bs`: the bytes `bs` stand in the byte space `m` from address `a` on. -/
def Holds (m : Memory) (a : Nat) (bs : List Byte) : Prop :=
  ∀ j, j < bs.length → Memory.read m (a + j) = bs[j]?

/-- What holds of the sequencer and its registers in every reachable state: R183 (a), (b), the relation
of R32, the canonical form of the byte spaces, and that what is read has been written (R40). -/
structure Inv (s : State) : Prop where
  /-- R183 (a). -/
  legal : LegalUop s.uop
  /-- The byte spaces are in canonical form. -/
  msg_wf : Memory.wf s.msg
  pm_wf : Memory.wf s.pm
  dg_wf : Memory.wf s.dg
  /-- `PLEN = 64 · NBLK` and `NBLK ≥ 1` (R32). -/
  plen_eq : s.plen.toNat = 64 * s.nblk.toNat
  nblk_pos : 1 ≤ s.nblk.toNat
  /-- `BLK` is 0 in Init and Padding (R182). -/
  blk_before : s.phase = some .init ∨ s.phase = some .padding → s.blk = 0
  /-- R183 (b), in PerBlockProcessing. -/
  blk_lt : s.phase = some .perBlockProcessing → s.blk.toNat < s.nblk.toNat
  /-- R183 (b), in Done. -/
  blk_eq : s.phase = some .done → s.blk = s.nblk
  /-- In PerBlockProcessing every byte below `PLEN` has been written (R40). -/
  pm_written : s.phase = some .perBlockProcessing →
    ∀ a, a < s.plen.toNat → (Memory.read s.pm a).isSome
  /-- While `done` = 1 every byte of `DG` has been written (R40). -/
  dg_written : s.done = true → ∀ a, a < 32 → (Memory.read s.dg a).isSome
  /-- `ERR` = 1 in Fault and nowhere else (R186, R213). -/
  err_iff : s.err = .lengthOverflow ↔ s.phase = some .fault
  /-- No message write is held against a run that has not begun (the model's own field, log 5). -/
  hazard_init : s.phase = some .init → s.hazard = false

/-- What each stage of a run of the message `M` has computed: R183 (c), (d), (e), and the end of R204. -/
structure Dataflow (M : List Byte) (s : State) : Prop where
  /-- `MLEN` and `NBLK` belong to `M`, whose bit-length fits its field. -/
  fits : 8 * M.length ≤ 2 ^ 64 - 1
  mlen_eq : s.mlen.toNat = M.length
  nblk_eq : s.nblk.toNat = blockCount M.length
  /-- `PM` holds the padded message from the end of `PAD` on (part of R183 (f)). -/
  pm_eq : Holds s.pm 0 (padBytes M)
  /-- R183 (e), and `H` does not change until `ADDBACK`. -/
  ldblk : opOf s.uop = Op.ldblk → s.H = chain (padBytes M) s.blk.toNat
  /-- R183 (c). -/
  sched : opOf s.uop = Op.sched →
    s.H = chain (padBytes M) s.blk.toNat ∧
      ∀ j (h : j < 64), j < (idxOf s.uop).toNat →
        s.W[j] = (schedule (blockWords (padBytes M) s.blk.toNat))[j]
  /-- R183 (d). -/
  initwv : opOf s.uop = Op.initwv →
    s.H = chain (padBytes M) s.blk.toNat ∧ s.W = schedule (blockWords (padBytes M) s.blk.toNat)
  /-- R183 (d), and the working variables are those of the rounds before. -/
  round : opOf s.uop = Op.round →
    s.H = chain (padBytes M) s.blk.toNat ∧ s.W = schedule (blockWords (padBytes M) s.blk.toNat) ∧
      s.wv = rounds (WorkingState.ofVector s.H) s.W (idxOf s.uop).toNat
  /-- After `ROUND 63`. -/
  addback : opOf s.uop = Op.addback →
    s.H = chain (padBytes M) s.blk.toNat ∧ s.W = schedule (blockWords (padBytes M) s.blk.toNat) ∧
      s.wv = rounds (WorkingState.ofVector s.H) s.W 64
  /-- After the last `ADDBACK` (R162). -/
  digest : opOf s.uop = Op.digest → s.H = chain (padBytes M) (blockCount M.length)
  /-- At `done` = 1, where the message was stable during the run (R250), `DG` is `hash(M)` (R204). -/
  halt : opOf s.uop = Op.halt → s.hazard = false → Holds s.dg 0 (hashOf M)

/-- From `START` on, the state is that of a run: in Padding `H` is `IV` (R195), and from the end of `PAD`
on there is a message whose run it is. -/
def RunInv (s : State) : Prop :=
  (s.phase = some .padding → s.H = IV) ∧
    (s.phase = some .perBlockProcessing ∨ s.phase = some .done → ∃ M, Dataflow M s)

/-- The first 64 primes (R28). -/
def firstPrimes : List Nat :=
  [2, 3, 5, 7, 11, 13, 17, 19, 23, 29, 31, 37, 41, 43, 47, 53] ++
  [59, 61, 67, 71, 73, 79, 83, 89, 97, 101, 103, 107, 109, 113, 127, 131] ++
  [137, 139, 149, 151, 157, 163, 167, 173, 179, 181, 191, 193, 197, 199, 211, 223] ++
  [227, 229, 233, 239, 241, 251, 257, 263, 269, 271, 277, 281, 283, 293, 307, 311]

end Sys2Proof.Safety
end

