-- ==== Sys2Proof/Certificates/Slice0/Obligations.lean ====
section
/-! DEFINITION. The statements for the provers. Each docstring names the rule or the sentence of the spec
it formalises; a clause that rests on a choice of the model says so and names the log entry. -/

open Sys2Proof Sys2Proof.Machine Sys2Proof.Safety

/-! ### Decoding and encoding -/

/-- Words of the spec's decoder table (95_test_vectors.md section 10.1) and of R86 decode to what the
table says. -/
def Obligations.TableWordsDecode : Prop :=
  decodeMicro 0x000 = .ok .wait ∧ decodeMicro 0x040 = .ok .pad ∧ decodeMicro 0x080 = .ok .ldblk ∧
  decodeMicro 0x0D0 = .ok (.sched 16) ∧ decodeMicro 0x0E5 = .ok (.sched 37) ∧
  decodeMicro 0x0FF = .ok (.sched 63) ∧ decodeMicro 0x100 = .ok .initwv ∧
  decodeMicro 0x140 = .ok (.round 0) ∧ decodeMicro 0x15F = .ok (.round 31) ∧
  decodeMicro 0x17F = .ok (.round 63) ∧ decodeMicro 0x180 = .ok .addback ∧
  decodeMicro 0x1C0 = .ok .digest ∧ decodeMicro 0x200 = .ok .halt ∧ decodeMicro 0x240 = .ok .fhalt ∧
  decodeMicro 0x0CF = .error (.reserved 0x0CF) ∧ decodeMicro 0x241 = .error (.reserved 0x241) ∧
  decodeMicro 0x3FF = .error (.reserved 0x3FF) ∧ decodeCommand 0b01 3 = .ok (.start 3) ∧
  decodeCommand 0b10 3 = .ok .clear

/-- R83: the decoder of a micro-operation word, on the numbers `op = u / 64` and `idx = u mod 64`. -/
def Obligations.MicroWordDecoding : Prop :=
  ∀ u : BitVec 10,
    decodeMicro u =
      if u.toNat / 64 = 3 ∧ 16 ≤ u.toNat % 64 then .ok (.sched (BitVec.ofNat 6 (u.toNat % 64)))
      else if u.toNat / 64 = 5 then .ok (.round (BitVec.ofNat 6 (u.toNat % 64)))
      else if u = 0x000 then .ok .wait
      else if u = 0x040 then .ok .pad
      else if u = 0x080 then .ok .ldblk
      else if u = 0x100 then .ok .initwv
      else if u = 0x180 then .ok .addback
      else if u = 0x1C0 then .ok .digest
      else if u = 0x200 then .ok .halt
      else if u = 0x240 then .ok .fhalt
      else .error (.reserved u)

/-- R84 (which the spec marks as derived): the decoder accepts exactly the listed values, and they are
120. -/
def Obligations.LegalValuesOfUop : Prop :=
  (∀ u : BitVec 10, (∃ i, decodeMicro u = .ok i) ↔ LegalUop u) ∧
    ((List.range 1024).filter fun n => decide (LegalUop (BitVec.ofNat 10 n))).length = 120

/-- R86: the command port, for every operand. -/
def Obligations.CommandWordDecoding : Prop :=
  ∀ len : BitVec Config.lenw,
    decodeCommand 0b00 len = .error .noCommand ∧ decodeCommand 0b01 len = .ok (.start len) ∧
      decodeCommand 0b10 len = .ok .clear ∧ decodeCommand 0b11 len = .ok .clear

/-- Decoding an encoded well-formed instruction gives it back, with every operand (R82, R83, R86). -/
def Obligations.DecodeOfEncode : Prop :=
  ∀ i : Instr, i.wf = true → decode (encode i) = .ok i

/-- A code that decodes is the encoding of what it decodes to, but for the codes of `CLEAR`, whose
`start` bit and operand are ignored (R82, R83, R86). -/
def Obligations.EncodeOfDecode : Prop :=
  ∀ (c : Code) (i : Instr), decode c = .ok i →
    i.wf = true ∧
      (c = encode i ∨ (i = .clear ∧ ∃ cmd len, c = .command cmd len ∧ cmd.getLsbD 1 = true))

/-! ### The step -/

/-- R182, with no host move pending: a step performs the micro-operation that `UOP` decodes to. -/
def Obligations.StepRunsMicroOperation : Prop :=
  ∀ (s : State) (i : Instr), s.moves = [] → decodeMicro s.uop = .ok i → i.wf = true →
    step s = exec i s

/-- A host command at a moment of its own is performed by the next step, in the state in which that
moment has been taken off the host's moves; the list of moves is the model's own field (log 6). At a
reserved `UOP` the state is refused (R85), so the command is stated at the legal ones. -/
def Obligations.StepRunsHostCommand : Prop :=
  ∀ (s : State) (i : Instr) (cmd : BitVec 2) (len : BitVec Config.lenw) (rest : List HostMove),
    LegalUop s.uop → s.moves = command cmd len :: rest → decodeCommand cmd len = .ok i →
      step s = exec i { s with moves := rest }

/-- An instruction that is placed is the one the next step performs: a well-formed micro-operation in
every state, a command in every state that is not refused for a reserved `UOP` (R85). What stands around it
is the model's own (log 15): the placed moment is taken off. -/
def Obligations.PlacedInstructionRuns : Prop :=
  ∀ (s : State) (i : Instr), i.wf = true →
    (∀ u, encode i = .micro u → step (s.withCode (encode i)) = exec i { s with uop := u }) ∧
    (∀ cmd len, encode i = .command cmd len → LegalUop s.uop →
      step (s.withCode (encode i)) = exec i s)

/-- R85: the 904 reserved values of `UOP` are those it lists; the decoder answers "reserved" for each; a
state whose `UOP` is one of them is refused by the step, whatever the host does and whatever else the state
holds; and reset, a command or a step never produces one. -/
def Obligations.ReservedUopIsRefused : Prop :=
  ((List.range 1024).filter fun n => decide (ReservedUop (BitVec.ofNat 10 n))).length = 904 ∧
  (∀ u : BitVec 10, ReservedUop u → decodeMicro u = .error (.reserved u)) ∧
  (∀ s : State, ReservedUop s.uop → step s = .refused .reservedMicroOp) ∧
  ¬ ReservedUop State.reset.uop ∧
  (∀ s t : State, step s = .next t → ¬ ReservedUop t.uop)

/-- R215, the order at one moment: reset first, and nothing else of the moment is left (R200); then
`CLEAR`; then the sequencer's step; a `START` last. That each of them is a step of its own, with what is
left of the moment first among the moves to come, is the model's form (log 7). At a reserved `UOP` the
state is refused (R85), so the order is stated at the legal ones. -/
def Obligations.OrderAtOneMoment : Prop :=
  ∀ (s : State) (m : Moment) (rest : List HostMove), LegalUop s.uop → s.moves = .inputs m :: rest →
    (m.reset = true → step s = exec .clear { s with moves := rest }) ∧
    (m.reset = false → m.cmd.getLsbD 1 = true →
      step s = exec .clear { s with
        moves := (if m.sequencer then [.inputs { m with cmd := 0 }] else []) ++ rest }) ∧
    (∀ i, m.reset = false → m.cmd.getLsbD 1 = false → m.sequencer = true →
      decodeMicro s.uop = .ok i →
      step s = exec i { s with
        moves := (if m.cmd.getLsbD 0 then [.inputs { m with sequencer := false }] else []) ++ rest }) ∧
    (m.reset = false → m.cmd = 0b01 → m.sequencer = false →
      step s = exec (.start m.len) { s with moves := rest }) ∧
    (m.reset = false → m.cmd = 0b00 → m.sequencer = false → step s = .next { s with moves := rest })

/-- R215: "A `CLEAR` that coincides with `PAD` raising leaves the core in `Init` with `ERR` = 0". -/
def Obligations.ClearWinsOverRaisingPad : Prop :=
  ∀ (s : State) (len : BitVec Config.lenw) (cmd : BitVec 2), s.uop = 0x040 → 8 * s.mlen.toNat > 2 ^ 64 - 1 →
    cmd.getLsbD 1 = true →
    s.moves = [.inputs { reset := false, cmd := cmd, len := len, sequencer := true }] →
      ∃ t : State, Host.Core.run Sys2Proof.core 2 s = .next t ∧ t.phase = some .init ∧
        t.err = .noError ∧ t.moves = []

/-! ### Word operations -/

/-- R104: `rotr` by bits, and as a number and with shifts for the amounts 1 to 31. -/
def Obligations.RotateRight : Prop :=
  ∀ (x : Word) (n : Nat),
    (∀ i, i < 32 → (rotr x n).getLsbD i = x.getLsbD ((i + n) % 32)) ∧
    (1 ≤ n → n ≤ 31 →
      (rotr x n).toNat = x.toNat / 2 ^ n + x.toNat % 2 ^ n * 2 ^ (32 - n) ∧
      rotr x n = x >>> n ||| x <<< (32 - n)) ∧
    rotr x 0 = x ∧ rotr x n = rotr x (n % 32)

/-- R105: `>>` as a number and by bits. -/
def Obligations.ShiftRight : Prop :=
  ∀ (x : Word) (n : Nat),
    (shr x n).toNat = x.toNat / 2 ^ n ∧
    (∀ i, i < 32 → (shr x n).getLsbD i = if i + n ≤ 31 then x.getLsbD (i + n) else false)

/-- R108 to R111: the four sigma functions by bits. -/
def Obligations.MixingFunctionsByBits : Prop :=
  ∀ (x : Word) (i : Nat), i < 32 →
    (s0 x).getLsbD i = ((x.getLsbD ((i + 7) % 32) ^^ x.getLsbD ((i + 18) % 32)) ^^
      (if i + 3 ≤ 31 then x.getLsbD (i + 3) else false)) ∧
    (s1 x).getLsbD i = ((x.getLsbD ((i + 17) % 32) ^^ x.getLsbD ((i + 19) % 32)) ^^
      (if i + 10 ≤ 31 then x.getLsbD (i + 10) else false)) ∧
    (S0 x).getLsbD i = ((x.getLsbD ((i + 2) % 32) ^^ x.getLsbD ((i + 13) % 32)) ^^
      x.getLsbD ((i + 22) % 32)) ∧
    (S1 x).getLsbD i = ((x.getLsbD ((i + 6) % 32) ^^ x.getLsbD ((i + 11) % 32)) ^^
      x.getLsbD ((i + 25) % 32))

/-- R112, R113: `ch` chooses and `maj` votes, bit by bit. -/
def Obligations.ChooseAndMajority : Prop :=
  ∀ (x y z : Word) (i : Nat), i < 32 →
    (ch x y z).getLsbD i = (if x.getLsbD i then y.getLsbD i else z.getLsbD i) ∧
    (maj x y z).getLsbD i =
      ((x.getLsbD i && y.getLsbD i) || (x.getLsbD i && z.getLsbD i) || (y.getLsbD i && z.getLsbD i))

/-- R28, R29: the list is that of the primes up to 311, in order, and they are 64; each `K[t]` is the
first 32 bits of the fractional part of the cube root of the `t`-th, each `IV[i]` that of a square root. The spec supplies both from general knowledge (K1, K2;
log 12). -/
def Obligations.ConstantsFromRoots : Prop :=
  firstPrimes.length = 64 ∧ (∀ p ∈ firstPrimes, Nat.Prime p) ∧ firstPrimes.Pairwise (· < ·) ∧
  (∀ p, p ≤ 311 → Nat.Prime p → p ∈ firstPrimes) ∧
  (∀ t (h : t < 64), ∃ q, q < 7 ∧
    (q * 2 ^ 32 + K[t].toNat) ^ 3 ≤ firstPrimes.getD t 0 * 2 ^ 96 ∧
    firstPrimes.getD t 0 * 2 ^ 96 < (q * 2 ^ 32 + K[t].toNat + 1) ^ 3) ∧
  (∀ i (h : i < 8), ∃ q, q < 5 ∧
    (q * 2 ^ 32 + IV[i].toNat) ^ 2 ≤ firstPrimes.getD i 0 * 2 ^ 64 ∧
    firstPrimes.getD i 0 * 2 ^ 64 < (q * 2 ^ 32 + IV[i].toNat + 1) ^ 2)

/-! ### PAD and the exception -/

/-- R121, R124: `PAD`, with the overflow it raises when and only when the bit-length does not fit, and
the padded message it writes otherwise: `k` is `(55 - L) mod 64`, and nothing but `PM`, `PLEN`, `NBLK`
and `UOP` changes. -/
def Obligations.PadWritesPaddedMessage : Prop :=
  encode .pad = .micro 0x040 ∧
  (∀ s : State, 8 * s.mlen.toNat > 2 ^ 64 - 1 →
    exec .pad s = .next { s with err := .lengthOverflow, uop := 0x240 }) ∧
  (∀ (s : State) (M : List Byte), 8 * M.length ≤ 2 ^ 64 - 1 → s.mlen.toNat = M.length →
    Holds s.msg 0 M →
    ∃ (t : State) (k P : Nat), k < 64 ∧ (k + M.length) % 64 = 55 ∧ P = M.length + 1 + k + 8 ∧
      exec .pad s = .next t ∧
      Holds t.pm 0 (M ++ [0x80] ++ List.replicate k 0x00 ++
        bytesBe64 (BitVec.ofNat 64 (8 * M.length))) ∧
      (∀ a, P ≤ a → Memory.read t.pm a = none) ∧
      t.plen.toNat = P ∧ t.nblk.toNat * 64 = P ∧
      t = { s with pm := t.pm, plen := t.plen, nblk := t.nblk, uop := 0x080 })

/-- R122 (which the spec marks as derived): `PM` after `PAD` in closed form, each of its four cases. -/
def Obligations.PadClosedForm : Prop :=
  ∀ (s t : State), 8 * s.mlen.toNat ≤ 2 ^ 64 - 1 → exec .pad s = .next t →
    ∀ j, j < t.plen.toNat →
      (j < s.mlen.toNat → Memory.read t.pm j = Memory.read s.msg j) ∧
      (j = s.mlen.toNat → Memory.read t.pm j = some 0x80) ∧
      (s.mlen.toNat < j → j < t.plen.toNat - 8 → Memory.read t.pm j = some 0x00) ∧
      (t.plen.toNat - 8 ≤ j →
        Memory.read t.pm j =
          some (BitVec.ofNat 8 (8 * s.mlen.toNat / 2 ^ (8 * (t.plen.toNat - 1 - j)))))

/-- R120: "In bytes: the output length `P` is the smallest multiple of 64 that is at least `L + 9`,
which is `P = 64 · (floor((L + 8) / 64) + 1)`", and R126 (g), (c). -/
def Obligations.PaddedLengthIsMinimal : Prop :=
  ∀ (s t : State), 8 * s.mlen.toNat ≤ 2 ^ 64 - 1 → exec .pad s = .next t →
    t.plen.toNat = 64 * ((s.mlen.toNat + 8) / 64 + 1) ∧
    t.nblk.toNat = (s.mlen.toNat + 8) / 64 + 1 ∧
    s.mlen.toNat + 9 ≤ t.plen.toNat ∧ t.plen.toNat ≤ s.mlen.toNat + 72 ∧
    (∀ Q, Q % 64 = 0 → s.mlen.toNat + 9 ≤ Q → t.plen.toNat ≤ Q)

/-- R126 (h) (which the spec marks as derived): padding is injective on the messages the core
accepts. -/
def Obligations.PaddingIsInjective : Prop :=
  ∀ M N : List Byte, 8 * M.length ≤ 2 ^ 64 - 1 → 8 * N.length ≤ 2 ^ 64 - 1 →
    padBytes M = padBytes N → M = N

/-- R213, the entry into Fault: `ERR` and `UOP` are written and nothing else; `PHASE` = Fault, `fault` =
1, `busy` = 0, `done` = 0. -/
def Obligations.OverflowEntry : Prop :=
  ∀ s : State, 8 * s.mlen.toNat > 2 ^ 64 - 1 →
    ∃ t : State, exec .pad s = .next t ∧ t = { s with err := .lengthOverflow, uop := 0x240 } ∧
      t.phase = some .fault ∧ t.fault = true ∧ t.busy = false ∧ t.done = false ∧
      errorCode t.err = 1

/-- R210, R215: only `PAD` raises, and only for a message whose bit-length does not fit. -/
def Obligations.OnlyPadRaises : Prop :=
  ∀ (i : Instr) (s t : State), exec i s = .next t → s.err = .noError → t.err = .lengthOverflow →
    i = .pad ∧ 8 * s.mlen.toNat > 2 ^ 64 - 1

/-- R253, U7: where `START` stated more bytes than the host wrote, `PAD` stops, by name; that an
unwritten byte has no value is log 3. -/
def Obligations.PadStopsOnUnwrittenMessage : Prop :=
  ∀ (s : State) (j : Nat), 8 * s.mlen.toNat ≤ 2 ^ 64 - 1 → j < s.mlen.toNat →
    Memory.read s.msg j = none → exec .pad s = .fault .unwrittenMessageByte

/-! ### LDBLK -/

/-- R136: `LDBLK` loads the sixteen big-endian words of block `BLK` and changes nothing else. -/
def Obligations.LdblkLoadsBlock : Prop :=
  encode .ldblk = .micro 0x080 ∧
  ∀ (s : State) (B : Nat → Byte), s.blk.toNat < s.nblk.toNat → s.plen.toNat = 64 * s.nblk.toNat →
    (∀ k, k < 64 → Memory.read s.pm (64 * s.blk.toNat + k) = some (B k)) →
    ∃ t : State, exec .ldblk s = .next t ∧
      (∀ j (h : j < 64), j < 16 → t.W[j].toNat =
        (B (4 * j)).toNat * 2 ^ 24 + (B (4 * j + 1)).toNat * 2 ^ 16 +
          (B (4 * j + 2)).toNat * 2 ^ 8 + (B (4 * j + 3)).toNat) ∧
      (∀ j (h : j < 64), 16 ≤ j → t.W[j] = s.W[j]) ∧
      t = { s with W := t.W, uop := 0x0D0 }

/-- R58 (which the spec marks as derived): `LDBLK` outside `BLK < NBLK` is refused; and where a byte of
the block holds no value it stops (U5, log 3). -/
def Obligations.LdblkStops : Prop :=
  (∀ s : State, s.nblk.toNat ≤ s.blk.toNat → exec .ldblk s = .refused .blockOutOfRange) ∧
  (∀ (s : State) (k : Nat), s.blk.toNat < s.nblk.toNat → s.plen.toNat = 64 * s.nblk.toNat → k < 64 →
    Memory.read s.pm (64 * s.blk.toNat + k) = none → exec .ldblk s = .fault .unwrittenPaddedByte)

/-! ### SCHED -/

/-- R146: `SCHED t` for every `t` in 16..63. -/
def Obligations.SchedComputesWord : Prop :=
  ∀ (t : Nat) (h : t < 64), 16 ≤ t →
    encode (.sched (BitVec.ofNat 6 t)) = .micro (BitVec.ofNat 10 (0x0C0 + t)) ∧
    ∀ s : State,
      exec (.sched (BitVec.ofNat 6 t)) s =
        .next { s with
          W := s.W.set t (s.W[t - 16] + s0 s.W[t - 15] + s.W[t - 7] + s1 s.W[t - 2])
          uop := if t < 63 then BitVec.ofNat 10 (0x0C0 + t + 1) else 0x100 }

/-- R85: the word that `SCHED t` would have for `t` in 0..15 is reserved. That the term `.sched t` itself,
which no word decodes to, is refused by `exec` is the model's choice (log 11). -/
def Obligations.SchedBelowSixteenIsRefused : Prop :=
  ∀ (s : State) (t : BitVec 6), t.toNat < 16 →
    (∃ u, encode (.sched t) = .micro u ∧ decodeMicro u = .error (.reserved u)) ∧
      exec (.sched t) s = .refused .reservedMicroOp

/-- R149, R150 (R150 is marked as derived): `LDBLK` and the 48 `SCHED` that follow leave `W` = schedule
of the block, whatever `W` held before, and change nothing else. -/
def Obligations.ExpandLeavesSchedule : Prop :=
  ∀ (s : State) (block : List Word), s.moves = [] → s.uop = 0x080 → s.blk.toNat < s.nblk.toNat →
    s.plen.toNat = 64 * s.nblk.toNat →
    Memory.readWords s.pm (64 * s.blk.toNat) 16 = some block →
    Host.Core.run Sys2Proof.core 49 s = .next { s with W := schedule block, uop := 0x100 }

/-! ### INITWV, ROUND, ADDBACK -/

/-- R156: `INITWV`. -/
def Obligations.InitwvCopiesHashState : Prop :=
  encode .initwv = .micro 0x100 ∧
  ∀ s : State, exec .initwv s =
    .next { s with
      wv := { a := s.H[0], b := s.H[1], c := s.H[2], d := s.H[3],
              e := s.H[4], f := s.H[5], g := s.H[6], h := s.H[7] }
      uop := 0x140 }

/-- R157: `ROUND t` for every `t` in 0..63: all eight variables at once, from the values before. -/
def Obligations.RoundUpdatesWorkingVariables : Prop :=
  ∀ (t : Nat) (h : t < 64),
    encode (.round (BitVec.ofNat 6 t)) = .micro (BitVec.ofNat 10 (0x140 + t)) ∧
    ∀ (s : State) (T1 T2 : Word),
      T1 = s.wv.h + S1 s.wv.e + ch s.wv.e s.wv.f s.wv.g + K[t] + s.W[t] →
      T2 = S0 s.wv.a + maj s.wv.a s.wv.b s.wv.c →
      exec (.round (BitVec.ofNat 6 t)) s =
        .next { s with
          wv := { a := T1 + T2, b := s.wv.a, c := s.wv.b, d := s.wv.c,
                  e := s.wv.d + T1, f := s.wv.e, g := s.wv.f, h := s.wv.g }
          uop := if t < 63 then BitVec.ofNat 10 (0x140 + t + 1) else 0x180 }

/-- R158: `ADDBACK`: eight sums, each wrapping by itself, the block counter, and the branch, wherever
the new `BLK` fits its BLKW = 56 bits (R33). -/
def Obligations.AddbackAddsAndBranches : Prop :=
  encode .addback = .micro 0x180 ∧
  ∀ s : State, s.blk.toNat + 1 < 2 ^ Config.blkw → exec .addback s =
    .next { s with
      H := #v[s.H[0] + s.wv.a, s.H[1] + s.wv.b, s.H[2] + s.wv.c, s.H[3] + s.wv.d,
              s.H[4] + s.wv.e, s.H[5] + s.wv.f, s.H[6] + s.wv.g, s.H[7] + s.wv.h]
      blk := s.blk + 1
      uop := if s.blk.toNat + 1 < s.nblk.toNat then 0x080 else 0x1C0 }

/-- R89, R161, R188 (R161 and R188 are marked as derived): the 115 micro-operations of `BLOCK` leave `H`
= compress(H before, schedule of the block) and `BLK` one higher, and change neither byte space. -/
def Obligations.BlockCompresses : Prop :=
  ∀ (s : State) (block : List Word), s.moves = [] → s.uop = 0x080 → s.blk.toNat < s.nblk.toNat →
    s.plen.toNat = 64 * s.nblk.toNat →
    Memory.readWords s.pm (64 * s.blk.toNat) 16 = some block →
    ∃ t : State, Host.Core.run Sys2Proof.core 115 s = .next t ∧
      t.H = compress s.H (schedule block) ∧ t.blk.toNat = s.blk.toNat + 1 ∧
      t.uop = (if s.blk.toNat + 1 < s.nblk.toNat then 0x080 else 0x1C0) ∧
      t = { s with wv := t.wv, W := t.W, H := t.H, blk := t.blk, uop := t.uop }

/-! ### DIGEST -/

/-- R171: `DIGEST` writes the eight words big-endian into `DG[0..31]` and changes nothing else, in a run
whose message was stable (R250; `hazard` is the model's own field, log 5). -/
def Obligations.DigestWritesHashState : Prop :=
  encode .digest = .micro 0x1C0 ∧
  ∀ s : State, s.hazard = false →
    ∃ t : State, exec .digest s = .next t ∧
      (∀ i (h : i < 8), ∀ m, m < 4 →
        Memory.read t.dg (4 * i + m) = some (BitVec.ofNat 8 (s.H[i].toNat / 2 ^ (24 - 8 * m)))) ∧
      (∀ a, 32 ≤ a → Memory.read t.dg a = Memory.read s.dg a) ∧
      t = { s with dg := t.dg, uop := 0x200 }

/-- The model's choice for a run whose message was written (R250, U4; log 5): `DIGEST` completes, and
each byte of the digest is a free value. -/
def Obligations.DigestAfterMessageWrite : Prop :=
  ∀ s : State, s.hazard = true →
    ∃ t : State, exec .digest s = .next t ∧
      (∀ n, n < 32 → Memory.read t.dg n = some (Config.freeByte (s.draws + n))) ∧
      (∀ a, 32 ≤ a → Memory.read t.dg a = Memory.read s.dg a) ∧
      t = { s with dg := t.dg, uop := 0x200, draws := s.draws + 32 }

/-! ### The idle micro-operations -/

/-- R184, R185, R186: `WAIT`, `HALT` and `FHALT` write the pc and nothing else; `done` = 1 after `HALT`,
`fault` = 1 and `done` = 0 after `FHALT`. -/
def Obligations.IdleMicroOperations : Prop :=
  encode .wait = .micro 0x000 ∧ encode .halt = .micro 0x200 ∧ encode .fhalt = .micro 0x240 ∧
  ∀ s : State, exec .wait s = .next { s with uop := 0x000 } ∧
    exec .halt s = .next { s with uop := 0x200 } ∧ exec .fhalt s = .next { s with uop := 0x240 } ∧
    ({ s with uop := 0x200 } : State).done = true ∧
    ({ s with uop := 0x240 } : State).fault = true ∧ ({ s with uop := 0x240 } : State).done = false

/-! ### The host's commands and accesses -/

/-- R195: `START len` in `(WAIT, 0)`, for every `len`, and its being ignored anywhere else. That the
model's own mark of a written message is cleared is log 5. -/
def Obligations.StartBeginsOrIsIgnored : Prop :=
  ∀ (s : State) (len : BitVec Config.lenw),
    encode (.start len) = .command 0b01 len ∧
    (s.uop = 0x000 →
      ∃ t : State, exec (.start len) s = .next t ∧
        t = { s with mlen := len, H := IV, blk := 0, err := .noError, uop := 0x040,
                     hazard := t.hazard }) ∧
    (s.uop ≠ 0x000 → exec (.start len) s = .next s)

/-- R196: `CLEAR` in every phase: the values of R41 that the spec gives, `MSG` not touched. What the
registers hold that R41 leaves without a value is log 1 and log 2, and is not stated. The meaning is stated
in every state; a step performs it at a legal `UOP` only (R85; log 11). -/
def Obligations.ClearGivesResetState : Prop :=
  (∀ cmd len, cmd.getLsbD 1 = true → decodeCommand cmd len = .ok .clear) ∧
  ∀ s : State, ∃ t : State, exec .clear s = .next t ∧ t.uop = 0x000 ∧ t.blk = 0 ∧ t.err = .noError ∧
    (∀ a, Memory.read t.pm a = none) ∧ (∀ a, Memory.read t.dg a = none) ∧
    t.msg = s.msg ∧ t.moves = s.moves

/-- R240: the reset input, in any phase, gives the reset state, and has exactly the effect of `CLEAR`;
after it `PHASE` = Init and `busy` = `done` = `fault` = 0. Every phase is that of a legal `UOP`; at a
reserved one the state is refused (R85). -/
def Obligations.ResetInput : Prop :=
  ∀ (s : State) (m : Moment) (rest : List HostMove), LegalUop s.uop → s.moves = .inputs m :: rest →
    m.reset = true →
    ∃ t : State, step s = .next t ∧ exec .clear { s with moves := rest } = .next t ∧
      t.uop = 0x000 ∧ t.blk = 0 ∧ t.err = .noError ∧ (∀ a, Memory.read t.pm a = none) ∧
      (∀ a, Memory.read t.dg a = none) ∧ t.msg = s.msg ∧ t.phase = some .init ∧ t.busy = false ∧
      t.done = false ∧ t.fault = false

/-- R41: the values it gives after reset. The registers it leaves without a value are not stated
(log 1, log 2). -/
def Obligations.StateAfterReset : Prop :=
  State.reset.uop = 0 ∧ State.reset.blk = 0 ∧ State.reset.err = .noError ∧
    (∀ a, Memory.read State.reset.pm a = none) ∧ (∀ a, Memory.read State.reset.dg a = none) ∧
    State.reset.phase = some .init ∧ State.reset.busy = false ∧ State.reset.done = false ∧
    State.reset.fault = false

/-- R35: the derived status, row by row of its table, with the codes of `PHASE` (R90). -/
def Obligations.StatusOutputs : Prop :=
  ∀ s : State,
    (opOf s.uop = 0 → s.phase.map phaseCode = some 0 ∧ s.busy = false ∧ s.done = false ∧
      s.fault = false) ∧
    (opOf s.uop = 1 → s.phase.map phaseCode = some 1 ∧ s.busy = true ∧ s.done = false ∧
      s.fault = false) ∧
    (2 ≤ (opOf s.uop).toNat → (opOf s.uop).toNat ≤ 6 → s.phase.map phaseCode = some 2 ∧
      s.busy = true ∧ s.done = false ∧ s.fault = false) ∧
    (opOf s.uop = 7 → s.phase.map phaseCode = some 3 ∧ s.busy = true ∧ s.done = false ∧
      s.fault = false) ∧
    (opOf s.uop = 8 → s.phase.map phaseCode = some 3 ∧ s.busy = false ∧ s.done = true ∧
      s.fault = false) ∧
    (opOf s.uop = 9 → s.phase.map phaseCode = some 4 ∧ s.busy = false ∧ s.done = false ∧
      s.fault = true)

/-- R197: a status read returns the outputs of the moment and changes nothing; the record of what the
host has read is the model's own (log 8). -/
def Obligations.StatusRead : Prop :=
  ∀ (s : State) (rest : List HostMove), s.moves = .readStatus :: rest → LegalUop s.uop →
    ∃ p, s.phase = some p ∧
      step s = .next { s with
        moves := rest
        seen := some (.status (phaseCode p) s.busy s.done s.fault (errorCode s.err)) }

/-- R198: a digest read returns the byte in `DG` while `done` = 1 and changes nothing. While `done` = 0
the value is unspecified (U3): it is the next free value, drawn afresh (log 4), for every count of draws,
and nothing of the core changes. At a reserved `UOP` the state is refused (R85). -/
def Obligations.DigestRead : Prop :=
  ∀ (s : State) (n : Fin 32) (rest : List HostMove), LegalUop s.uop → s.moves = .readDigest n :: rest →
    (∀ b, s.done = true → Memory.read s.dg n.val = some b →
      step s = .next { s with moves := rest, seen := some (.digestByte n b) }) ∧
    (s.done = false →
      step s = .next { s with
        moves := rest
        seen := some (.digestByte n (Config.freeByte s.draws))
        draws := s.draws + 1 })

/-- R199, in Init: a message write puts the byte in `MSG` and changes nothing else; an address outside
the message store is refused (D26), whatever the store's size, which is open (`Config.msgCap`, log 9). At
a reserved `UOP` the state is refused (R85). -/
def Obligations.MessageWriteInInit : Prop :=
  ∀ (s : State) (addr : Nat) (b : Byte) (rest : List HostMove),
    LegalUop s.uop → s.moves = .writeMessage addr b :: rest →
    (addr < Config.msgCap → s.phase = some .init →
      ∃ t : State, step s = .next t ∧ Memory.read t.msg addr = some b ∧
        (∀ a, a ≠ addr → Memory.read t.msg a = Memory.read s.msg a) ∧
        t = { s with moves := rest, msg := t.msg }) ∧
    (Config.msgCap ≤ addr → step s = .refused .outsideMessageStore)

/-- R217, R250, outside Init: a message write changes neither `ERR` nor `PHASE` nor any register of the
core, and no other byte of `MSG`. What it gives is the model's choice (log 5), for every count of draws:
the byte written holds a free value, the run is marked so that its digest will be free, and with `done` = 1
each byte of the digest is a free value at once. That the write is accepted at every address of the
message store, whose size is open, is log 9. At a reserved `UOP` the state is refused (R85). -/
def Obligations.MessageWriteOutsideInit : Prop :=
  ∀ (s : State) (addr : Nat) (b : Byte) (rest : List HostMove),
    LegalUop s.uop → s.moves = .writeMessage addr b :: rest → addr < Config.msgCap →
    s.phase ≠ some .init →
    ∃ t : State, step s = .next t ∧ t.hazard = true ∧ t.draws = s.draws + 33 ∧
      Memory.read t.msg addr = some (Config.freeByte s.draws) ∧
      (s.done = true →
        ∀ n, n < 32 → Memory.read t.dg n = some (Config.freeByte (s.draws + 1 + n))) ∧
      (∀ a, a ≠ addr → Memory.read t.msg a = Memory.read s.msg a) ∧
      (∀ a, s.done = false ∨ 32 ≤ a → Memory.read t.dg a = Memory.read s.dg a) ∧
      t = { s with moves := rest, msg := t.msg, dg := t.dg, hazard := t.hazard, draws := t.draws }

/-! ### Frames over all instructions -/

/-- R23, R26, R27, R30 to R34, R50 to R53: which instruction may write which register; `CLEAR` writes
all of the core's. -/
def Obligations.WhoWritesWhichRegister : Prop :=
  ∀ (i : Instr) (s t : State), exec i s = .next t → i ≠ .clear →
    (i ≠ .initwv → (∀ k, i ≠ .round k) → t.wv = s.wv) ∧
    (i ≠ .addback → (∀ len, i ≠ .start len) → t.H = s.H) ∧
    (i ≠ .ldblk → (∀ k, i ≠ .sched k) → t.W = s.W) ∧
    (i ≠ .addback → (∀ len, i ≠ .start len) → t.blk = s.blk) ∧
    (i ≠ .pad → t.nblk = s.nblk ∧ t.plen = s.plen) ∧
    ((∀ len, i ≠ .start len) → t.mlen = s.mlen) ∧
    (i ≠ .pad → (∀ len, i ≠ .start len) → t.err = s.err) ∧
    t.moves = s.moves ∧ t.seen = s.seen

/-- R50 to R53: every byte of the three byte spaces that an instruction does not store to reads as
before: the core never writes `MSG`, only `PAD` writes `PM`, only `DIGEST` writes `DG` and there only the
32 bytes; `CLEAR` (left out here) empties `PM` and `DG`. -/
def Obligations.OnlyStoredBytesChange : Prop :=
  ∀ (i : Instr) (s t : State), exec i s = .next t → i ≠ .clear →
    ∀ a, Memory.read t.msg a = Memory.read s.msg a ∧
      (i ≠ .pad → Memory.read t.pm a = Memory.read s.pm a) ∧
      (i ≠ .digest ∨ 32 ≤ a → Memory.read t.dg a = Memory.read s.dg a)

/-! ### The whole machine -/

/-- R182: the next `UOP` and the next `BLK`, row by row of its table, with no host move pending. -/
def Obligations.NextUopTable : Prop :=
  ∀ s t : State, s.moves = [] → step s = .next t →
    (s.uop = 0x000 → t.uop = 0x000 ∧ t.blk = s.blk) ∧
    (s.uop = 0x040 → 8 * s.mlen.toNat ≤ 2 ^ 64 - 1 → t.uop = 0x080 ∧ t.blk = s.blk) ∧
    (s.uop = 0x040 → 8 * s.mlen.toNat > 2 ^ 64 - 1 → t.uop = 0x240 ∧ t.blk = s.blk) ∧
    (s.uop = 0x080 → t.uop = 0x0D0 ∧ t.blk = s.blk) ∧
    (∀ k, 16 ≤ k → k ≤ 62 → s.uop = BitVec.ofNat 10 (0x0C0 + k) →
      t.uop = BitVec.ofNat 10 (0x0C0 + k + 1) ∧ t.blk = s.blk) ∧
    (s.uop = 0x0FF → t.uop = 0x100 ∧ t.blk = s.blk) ∧
    (s.uop = 0x100 → t.uop = 0x140 ∧ t.blk = s.blk) ∧
    (∀ k, k ≤ 62 → s.uop = BitVec.ofNat 10 (0x140 + k) →
      t.uop = BitVec.ofNat 10 (0x140 + k + 1) ∧ t.blk = s.blk) ∧
    (s.uop = 0x17F → t.uop = 0x180 ∧ t.blk = s.blk) ∧
    (s.uop = 0x180 → s.blk.toNat + 1 < s.nblk.toNat →
      t.uop = 0x080 ∧ t.blk.toNat = s.blk.toNat + 1) ∧
    (s.uop = 0x180 → s.blk.toNat + 1 = s.nblk.toNat →
      t.uop = 0x1C0 ∧ t.blk.toNat = s.blk.toNat + 1) ∧
    (s.uop = 0x1C0 → t.uop = 0x200 ∧ t.blk = s.blk) ∧
    (s.uop = 0x200 → t.uop = 0x200 ∧ t.blk = s.blk) ∧
    (s.uop = 0x240 → t.uop = 0x240 ∧ t.blk = s.blk)

/-- The invariant of the next statement holds after reset. That `NBLK` = 1 and `PLEN` = 64 there, which
the relation of R32 needs, is the model's choice (log 2). -/
def Obligations.InvAtReset : Prop := Inv State.reset

/-- R183 (a), (b) (marked as derived), R32 and R40: every step keeps the invariant, whatever the host
does. -/
def Obligations.StepKeepsInv : Prop :=
  ∀ s t : State, Inv s → step s = .next t → Inv t

/-- The invariant rules out every stop but two, which the host causes: in a state that meets it, a step
answers a next state, or `PAD` meets an unwritten message byte (R253), or the host writes outside the
message store (D26), whose size is open: that a write is refused from `Config.msgCap` on is log 9. So
R58's assertion never fails and no reserved `UOP` is met (R85). -/
def Obligations.InvLeavesOnlyHostStops : Prop :=
  ∀ s : State, Inv s →
    (∃ t, step s = .next t) ∨
      (step s = .fault .unwrittenMessageByte ∧ s.uop = 0x040 ∧
        ∃ j, j < s.mlen.toNat ∧ Memory.read s.msg j = none) ∨
      (step s = .refused .outsideMessageStore ∧
        ∃ a b rest, s.moves = .writeMessage a b :: rest ∧ Config.msgCap ≤ a)

/-- R183 (c), (d), (e), R204 (marked as derived): after reset there is no run to speak of. -/
def Obligations.RunInvAtReset : Prop := RunInv State.reset

/-- R183 (c), (d), (e), R204 (marked as derived): every step, whatever the host does, keeps what each
stage of a run has computed, and so leaves in `DG` at `done` = 1 the hash of the message `PAD` read,
where the message was stable (R250). From the end of `PAD` on it is one message's run: a step keeps that
very message, and `PM`, `PLEN`, `NBLK` and `MLEN` with it (R183 (f)), until `CLEAR` or reset. What a
message write during the run does, and the mark `hazard` by which the last clause is told, are the model's
choice (log 5). -/
def Obligations.StepKeepsRunInv : Prop :=
  ∀ s t : State, Inv s → RunInv s → step s = .next t →
    RunInv t ∧
      (s.phase = some .perBlockProcessing ∨ s.phase = some .done →
        (t.phase = some .perBlockProcessing ∨ t.phase = some .done →
          (∀ M, Dataflow M s → Dataflow M t) ∧
            t.pm = s.pm ∧ t.plen = s.plen ∧ t.nblk = s.nblk ∧ t.mlen = s.mlen) ∧
        (t.phase ≠ some .perBlockProcessing → t.phase ≠ some .done → t.phase = some .init))

/-- R204, R188 (marked as derived): from Init, with the message `M` in `MSG` and the host's one move
`START L`, the machine makes `1 + (2 + 115·N)` steps, the first being the command, and then stands in
`(HALT, 0)` with `DG` = hash(M), `ERR` = 0 and `MSG` as it was. -/
def Obligations.RunComputesHash : Prop :=
  ∀ (s : State) (M : List Byte), s.uop = 0x000 →
    s.moves = [command 0b01 (BitVec.ofNat Config.lenw M.length)] → 8 * M.length ≤ 2 ^ 64 - 1 →
    Holds s.msg 0 M →
    ∃ t : State,
      Host.Core.run Sys2Proof.core (1 + (2 + 115 * ((M.length + 8) / 64 + 1))) s = .next t ∧
      Succeeded t ∧ t.done = true ∧ t.err = .noError ∧
      Memory.readBytes t.dg 0 32 = some (hashOf M) ∧ t.blk = t.nblk ∧ t.msg = s.msg ∧ t.moves = []

/-- R210, R213, R216: from Init with the one host move `START len`, `8·len > 2^64 - 1`, the machine
stands in `(FHALT, 0)` after two steps and for ever, with `ERR` = 1 and nothing written to `PM` or
`DG`. -/
def Obligations.OverflowRunFails : Prop :=
  ∀ (s : State) (len : BitVec Config.lenw) (n : Nat), s.uop = 0x000 → s.moves = [command 0b01 len] →
    8 * len.toNat > 2 ^ 64 - 1 →
    ∃ t : State, Host.Core.run Sys2Proof.core (2 + n) s = .next t ∧ Failed t ∧
      t.err = .lengthOverflow ∧ t.done = false ∧ t.pm = s.pm ∧ t.dg = s.dg ∧ t.msg = s.msg

/-- R214, R216: Fault is left only by `CLEAR` or reset, which put the core in Init with `ERR` = 0; every
other step stays in `(FHALT, 0)` with `ERR` as it was. -/
def Obligations.FaultLeftByClearOrReset : Prop :=
  ∀ s t : State, s.uop = 0x240 → step s = .next t →
    (t.uop = 0x240 ∧ t.err = s.err ∧ t.dg = s.dg) ∨
      (t.uop = 0x000 ∧ t.err = .noError ∧
        ∃ m rest, s.moves = .inputs m :: rest ∧ (m.reset = true ∨ m.cmd.getLsbD 1 = true))

/-- R185, R198, R52: Done is left only by `CLEAR` or reset; every other step stays in `(HALT, 0)` with
the digest as it was, but for a message write, which has no defined result (R250, log 5). -/
def Obligations.HaltLeftByClearOrReset : Prop :=
  ∀ s t : State, s.uop = 0x200 → step s = .next t →
    (t.uop = 0x200 ∧ t.H = s.H ∧ t.blk = s.blk ∧ t.nblk = s.nblk ∧
      (t.dg = s.dg ∨ ∃ a b rest, s.moves = .writeMessage a b :: rest)) ∨
      (t.uop = 0x000 ∧
        ∃ m rest, s.moves = .inputs m :: rest ∧ (m.reset = true ∨ m.cmd.getLsbD 1 = true))

/-! ### What a run cannot learn -/

/-- R243: "Nothing persists across reset or `CLEAR` inside the core", and two runs of the same message
give the same digest and the same status whatever the core did before. -/
def Obligations.NothingPersists : Prop :=
  (∀ s t : State, s.msg = t.msg → s.moves = t.moves → s.seen = t.seen → s.draws = t.draws →
    exec .clear s = exec .clear t) ∧
  (∀ (s₁ s₂ : State) (M : List Byte), s₁.uop = 0x000 → s₂.uop = 0x000 →
    s₁.moves = [command 0b01 (BitVec.ofNat Config.lenw M.length)] → s₂.moves = s₁.moves →
    8 * M.length ≤ 2 ^ 64 - 1 → Holds s₁.msg 0 M → Holds s₂.msg 0 M →
    ∃ (k : Nat) (t₁ t₂ : State), Host.Core.run Sys2Proof.core k s₁ = .next t₁ ∧
      Host.Core.run Sys2Proof.core k s₂ = .next t₂ ∧ Succeeded t₁ ∧ Succeeded t₂ ∧
      t₁.err = t₂.err ∧ ∀ n, n < 32 → Memory.read t₁.dg n = Memory.read t₂.dg n)

/-- R187, R261 (marked as derived): the sequence of micro-operations depends on the length only. Two
states that agree on `UOP`, `BLK`, `NBLK`, `PLEN`, `MLEN` and on the host's moves, and that both make a
step, agree on them after it, whatever their data. -/
def Obligations.SequenceDependsOnLengthOnly : Prop :=
  ∀ s₁ s₂ t₁ t₂ : State, s₁.uop = s₂.uop → s₁.blk = s₂.blk → s₁.nblk = s₂.nblk → s₁.plen = s₂.plen →
    s₁.mlen = s₂.mlen → s₁.moves = s₂.moves → step s₁ = .next t₁ → step s₂ = .next t₂ →
    t₁.uop = t₂.uop ∧ t₁.blk = t₂.blk ∧ t₁.nblk = t₂.nblk ∧ t₁.plen = t₂.plen ∧
      t₁.mlen = t₂.mlen ∧ t₁.moves = t₂.moves

/-- R37: the host observes the core only through `PHASE`, `busy`, `done`, `fault`, `ERR` and `DG`. Two
states that agree on these, on the host's moves, on what the host has seen and on the count of free values
show the host the same in the next step, whatever `UOP` and their other registers and bytes hold. -/
def Obligations.HostSeesOnlyOutputs : Prop :=
  ∀ s₁ s₂ t₁ t₂ : State, s₁.phase = s₂.phase → s₁.busy = s₂.busy → s₁.done = s₂.done →
    s₁.fault = s₂.fault → s₁.err = s₂.err → s₁.dg = s₂.dg → s₁.moves = s₂.moves →
    s₁.seen = s₂.seen → s₁.draws = s₂.draws → step s₁ = .next t₁ → step s₂ = .next t₂ →
    t₁.seen = t₂.seen
end

