-- ==== Sys2Proof/Laws/Bytes.lean ====
section
/-! SUPPORT. Byte order: words from bytes and bytes from words, and the digest as bytes. -/

namespace Sys2Proof.Machine

theorem be32_toNat (b0 b1 b2 b3 : Byte) :
    (be32 b0 b1 b2 b3).toNat =
      b0.toNat * 2 ^ 24 + b1.toNat * 2 ^ 16 + b2.toNat * 2 ^ 8 + b3.toNat := by
  have := b0.isLt
  have := b1.isLt
  have := b2.isLt
  have := b3.isLt
  simp only [be32, BitVec.toNat_ofNat]
  omega

@[simp] theorem bytesBe32_length (x : Word) : (bytesBe32 x).length = 4 := rfl

@[simp] theorem bytesBe64_length (n : BitVec 64) : (bytesBe64 n).length = 8 := rfl

@[simp] theorem digestBytes_length (H : Vector Word 8) : (digestBytes H).length = 32 := rfl

/-- Everything `wordsOfBytes` does: it answers exactly when there are bytes enough, and then with one
big-endian word for each four bytes. -/
theorem wordsOfBytes_eq (n : Nat) (bs : List Byte) (h : 4 * n ≤ bs.length) :
    wordsOfBytes n bs = some (List.ofFn fun j : Fin n =>
      be32 bs[4 * j.val] bs[4 * j.val + 1] bs[4 * j.val + 2] bs[4 * j.val + 3]) := by
  induction n generalizing bs with
  | zero => simp [wordsOfBytes]
  | succ n ih =>
    match bs, h with
    | b0 :: b1 :: b2 :: b3 :: rest, h =>
      have hr : 4 * n ≤ rest.length := by simp at h; omega
      simp [wordsOfBytes, ih rest hr, List.ofFn_succ, Nat.mul_add]

theorem wordsOfBytes_none (n : Nat) (bs : List Byte) (h : bs.length < 4 * n) :
    wordsOfBytes n bs = none := by
  induction n generalizing bs with
  | zero => omega
  | succ n ih =>
    match bs, h with
    | [], _ => rfl
    | [_], _ => rfl
    | [_, _], _ => rfl
    | [_, _, _], _ => rfl
    | _ :: _ :: _ :: _ :: rest, h => simp [wordsOfBytes, ih rest (by simp at h; omega)]

theorem setLowWords_getElem (w : Vector Word 64) (ws : List Word) (j : Nat) (h : j < 64) :
    (setLowWords w ws)[j] = ws.getD j w[j] := by
  simp [setLowWords]

end Sys2Proof.Machine
end

