-- ==== Sys2Proof/Laws/Encoding.lean ====
section
/-! SUPPORT. The fields of a micro-operation word, and what the decoder answers. -/

namespace Sys2Proof

theorem opOf_toNat (u : BitVec 10) : (opOf u).toNat = u.toNat / 64 := by
  have := u.isLt
  simp only [opOf, BitVec.extractLsb'_toNat, Nat.shiftRight_eq_div_pow]
  omega

theorem idxOf_toNat (u : BitVec 10) : (idxOf u).toNat = u.toNat % 64 := by
  simp [idxOf, BitVec.extractLsb'_toNat]

theorem microWord_toNat (op : BitVec 4) (idx : BitVec 6) :
    (microWord op idx).toNat = op.toNat * 64 + idx.toNat := by
  have := op.isLt
  have := idx.isLt
  simp only [microWord, BitVec.toNat_ofNat]
  omega

@[simp] theorem opOf_microWord (op : BitVec 4) (idx : BitVec 6) : opOf (microWord op idx) = op := by
  apply BitVec.eq_of_toNat_eq
  have := idx.isLt
  rw [opOf_toNat, microWord_toNat]
  omega

@[simp] theorem idxOf_microWord (op : BitVec 4) (idx : BitVec 6) : idxOf (microWord op idx) = idx := by
  apply BitVec.eq_of_toNat_eq
  have := idx.isLt
  rw [idxOf_toNat, microWord_toNat]
  omega

/-- A word is its two fields. -/
theorem microWord_fields (u : BitVec 10) : microWord (opOf u) (idxOf u) = u := by
  apply BitVec.eq_of_toNat_eq
  rw [microWord_toNat, opOf_toNat, idxOf_toNat]
  omega

/-- A word is determined by its two fields. -/
theorem eq_microWord {u : BitVec 10} {op : BitVec 4} {idx : BitVec 6} (ho : opOf u = op)
    (hi : idxOf u = idx) : u = microWord op idx := by
  rw [← microWord_fields u, ho, hi]

/-- Everything `plainMicro` can answer. -/
theorem plainMicro_some {op : BitVec 4} {i : Instr} (h : plainMicro op = some i) :
    encode i = .micro (microWord op 0) ∧ i.wf = true := by
  have key : ∀ op : BitVec 4,
      (plainMicro op).all fun i => decide (encode i = .micro (microWord op 0)) && i.wf := by decide
  simpa [h] using key op

/-- `UOP` is not reserved exactly where the decoder answers a micro-operation. -/
theorem isReserved_eq_false {u : BitVec 10} : isReserved u = false ↔ ∃ i, decodeMicro u = .ok i := by
  unfold isReserved
  cases decodeMicro u <;> simp

/-- Everything the micro-operation decoder can accept: the word of the instruction it answers, which is
well-formed. -/
theorem decodeMicro_ok {u : BitVec 10} {i : Instr} (h : decodeMicro u = .ok i) :
    encode i = .micro u ∧ i.wf = true := by
  simp only [decodeMicro] at h
  split at h
  · next ho =>
    split at h
    · next hx => cases h; exact ⟨by rw [encode, ← eq_microWord ho rfl], by simpa [Instr.wf] using hx⟩
    · cases h
  · split at h
    · next ho => cases h; exact ⟨by rw [encode, ← eq_microWord ho rfl], rfl⟩
    · split at h
      · next hx =>
        split at h
        · next j hj =>
          cases h
          have := plainMicro_some hj
          rwa [← eq_microWord rfl hx] at this
        · cases h
      · cases h

/-- Everything the command decoder can answer (R86). -/
theorem decodeCommand_cases (cmd : BitVec 2) (len : BitVec Config.lenw) :
    (cmd.getLsbD 1 = true ∧ decodeCommand cmd len = .ok .clear) ∨
      (cmd = 0b01 ∧ decodeCommand cmd len = .ok (.start len)) ∨
      (cmd = 0b00 ∧ decodeCommand cmd len = .error .noCommand) := by
  have : cmd = 0b00 ∨ cmd = 0b01 ∨ cmd = 0b10 ∨ cmd = 0b11 := by revert cmd; decide
  rcases this with rfl | rfl | rfl | rfl
  · exact .inr (.inr ⟨rfl, rfl⟩)
  · exact .inr (.inl ⟨rfl, rfl⟩)
  · exact .inl ⟨rfl, rfl⟩
  · exact .inl ⟨rfl, rfl⟩

end Sys2Proof
end

