-- ==== Sys2Proof/Laws/State.lean ====
section
/-! SUPPORT. One lemma per field of State for each named update of it. -/

namespace Sys2Proof.Machine

/-! ### `pc <- (op, idx)` -/

@[simp] theorem State.goto_uop (s : State) (op : BitVec 4) (idx : BitVec 6) :
    (s.goto op idx).uop = microWord op idx := rfl

@[simp] theorem State.goto_wv (s : State) (op : BitVec 4) (idx : BitVec 6) :
    (s.goto op idx).wv = s.wv := rfl

@[simp] theorem State.goto_H (s : State) (op : BitVec 4) (idx : BitVec 6) :
    (s.goto op idx).H = s.H := rfl

@[simp] theorem State.goto_W (s : State) (op : BitVec 4) (idx : BitVec 6) :
    (s.goto op idx).W = s.W := rfl

@[simp] theorem State.goto_blk (s : State) (op : BitVec 4) (idx : BitVec 6) :
    (s.goto op idx).blk = s.blk := rfl

@[simp] theorem State.goto_nblk (s : State) (op : BitVec 4) (idx : BitVec 6) :
    (s.goto op idx).nblk = s.nblk := rfl

@[simp] theorem State.goto_plen (s : State) (op : BitVec 4) (idx : BitVec 6) :
    (s.goto op idx).plen = s.plen := rfl

@[simp] theorem State.goto_mlen (s : State) (op : BitVec 4) (idx : BitVec 6) :
    (s.goto op idx).mlen = s.mlen := rfl

@[simp] theorem State.goto_err (s : State) (op : BitVec 4) (idx : BitVec 6) :
    (s.goto op idx).err = s.err := rfl

@[simp] theorem State.goto_msg (s : State) (op : BitVec 4) (idx : BitVec 6) :
    (s.goto op idx).msg = s.msg := rfl

@[simp] theorem State.goto_pm (s : State) (op : BitVec 4) (idx : BitVec 6) :
    (s.goto op idx).pm = s.pm := rfl

@[simp] theorem State.goto_dg (s : State) (op : BitVec 4) (idx : BitVec 6) :
    (s.goto op idx).dg = s.dg := rfl

@[simp] theorem State.goto_moves (s : State) (op : BitVec 4) (idx : BitVec 6) :
    (s.goto op idx).moves = s.moves := rfl

@[simp] theorem State.goto_seen (s : State) (op : BitVec 4) (idx : BitVec 6) :
    (s.goto op idx).seen = s.seen := rfl

@[simp] theorem State.goto_draws (s : State) (op : BitVec 4) (idx : BitVec 6) :
    (s.goto op idx).draws = s.draws := rfl

@[simp] theorem State.goto_hazard (s : State) (op : BitVec 4) (idx : BitVec 6) :
    (s.goto op idx).hazard = s.hazard := rfl

/-! ### The counter of free values -/

@[simp] theorem State.advanceDraws_draws (s : State) (n : Nat) :
    (s.advanceDraws n).draws = s.draws + n := rfl

@[simp] theorem State.advanceDraws_wv (s : State) (n : Nat) :
    (s.advanceDraws n).wv = s.wv := rfl

@[simp] theorem State.advanceDraws_H (s : State) (n : Nat) :
    (s.advanceDraws n).H = s.H := rfl

@[simp] theorem State.advanceDraws_W (s : State) (n : Nat) :
    (s.advanceDraws n).W = s.W := rfl

@[simp] theorem State.advanceDraws_uop (s : State) (n : Nat) :
    (s.advanceDraws n).uop = s.uop := rfl

@[simp] theorem State.advanceDraws_blk (s : State) (n : Nat) :
    (s.advanceDraws n).blk = s.blk := rfl

@[simp] theorem State.advanceDraws_nblk (s : State) (n : Nat) :
    (s.advanceDraws n).nblk = s.nblk := rfl

@[simp] theorem State.advanceDraws_plen (s : State) (n : Nat) :
    (s.advanceDraws n).plen = s.plen := rfl

@[simp] theorem State.advanceDraws_mlen (s : State) (n : Nat) :
    (s.advanceDraws n).mlen = s.mlen := rfl

@[simp] theorem State.advanceDraws_err (s : State) (n : Nat) :
    (s.advanceDraws n).err = s.err := rfl

@[simp] theorem State.advanceDraws_msg (s : State) (n : Nat) :
    (s.advanceDraws n).msg = s.msg := rfl

@[simp] theorem State.advanceDraws_pm (s : State) (n : Nat) :
    (s.advanceDraws n).pm = s.pm := rfl

@[simp] theorem State.advanceDraws_dg (s : State) (n : Nat) :
    (s.advanceDraws n).dg = s.dg := rfl

@[simp] theorem State.advanceDraws_moves (s : State) (n : Nat) :
    (s.advanceDraws n).moves = s.moves := rfl

@[simp] theorem State.advanceDraws_seen (s : State) (n : Nat) :
    (s.advanceDraws n).seen = s.seen := rfl

@[simp] theorem State.advanceDraws_hazard (s : State) (n : Nat) :
    (s.advanceDraws n).hazard = s.hazard := rfl

/-! ### Taking the exception: two registers change -/

@[simp] theorem State.raiseLengthOverflow_wv (s : State) :
    s.raiseLengthOverflow.wv = s.wv := rfl

@[simp] theorem State.raiseLengthOverflow_H (s : State) :
    s.raiseLengthOverflow.H = s.H := rfl

@[simp] theorem State.raiseLengthOverflow_W (s : State) :
    s.raiseLengthOverflow.W = s.W := rfl

@[simp] theorem State.raiseLengthOverflow_uop (s : State) :
    s.raiseLengthOverflow.uop = microWord Op.fhalt 0 := rfl

@[simp] theorem State.raiseLengthOverflow_blk (s : State) :
    s.raiseLengthOverflow.blk = s.blk := rfl

@[simp] theorem State.raiseLengthOverflow_nblk (s : State) :
    s.raiseLengthOverflow.nblk = s.nblk := rfl

@[simp] theorem State.raiseLengthOverflow_plen (s : State) :
    s.raiseLengthOverflow.plen = s.plen := rfl

@[simp] theorem State.raiseLengthOverflow_mlen (s : State) :
    s.raiseLengthOverflow.mlen = s.mlen := rfl

@[simp] theorem State.raiseLengthOverflow_err (s : State) :
    s.raiseLengthOverflow.err = .lengthOverflow := rfl

@[simp] theorem State.raiseLengthOverflow_msg (s : State) :
    s.raiseLengthOverflow.msg = s.msg := rfl

@[simp] theorem State.raiseLengthOverflow_pm (s : State) :
    s.raiseLengthOverflow.pm = s.pm := rfl

@[simp] theorem State.raiseLengthOverflow_dg (s : State) :
    s.raiseLengthOverflow.dg = s.dg := rfl

@[simp] theorem State.raiseLengthOverflow_moves (s : State) :
    s.raiseLengthOverflow.moves = s.moves := rfl

@[simp] theorem State.raiseLengthOverflow_seen (s : State) :
    s.raiseLengthOverflow.seen = s.seen := rfl

@[simp] theorem State.raiseLengthOverflow_draws (s : State) :
    s.raiseLengthOverflow.draws = s.draws := rfl

@[simp] theorem State.raiseLengthOverflow_hazard (s : State) :
    s.raiseLengthOverflow.hazard = s.hazard := rfl

/-! ### The way back to the reset state: the host's side is kept -/

@[simp] theorem State.toReset_wv (s : State) : s.toReset.wv = State.reset.wv := rfl

@[simp] theorem State.toReset_H (s : State) : s.toReset.H = State.reset.H := rfl

@[simp] theorem State.toReset_W (s : State) : s.toReset.W = State.reset.W := rfl

@[simp] theorem State.toReset_uop (s : State) : s.toReset.uop = State.reset.uop := rfl

@[simp] theorem State.toReset_blk (s : State) : s.toReset.blk = State.reset.blk := rfl

@[simp] theorem State.toReset_nblk (s : State) : s.toReset.nblk = State.reset.nblk := rfl

@[simp] theorem State.toReset_plen (s : State) : s.toReset.plen = State.reset.plen := rfl

@[simp] theorem State.toReset_mlen (s : State) : s.toReset.mlen = State.reset.mlen := rfl

@[simp] theorem State.toReset_err (s : State) : s.toReset.err = State.reset.err := rfl

@[simp] theorem State.toReset_msg (s : State) : s.toReset.msg = s.msg := rfl

@[simp] theorem State.toReset_pm (s : State) : s.toReset.pm = State.reset.pm := rfl

@[simp] theorem State.toReset_dg (s : State) : s.toReset.dg = State.reset.dg := rfl

@[simp] theorem State.toReset_moves (s : State) : s.toReset.moves = s.moves := rfl

@[simp] theorem State.toReset_seen (s : State) : s.toReset.seen = s.seen := rfl

@[simp] theorem State.toReset_draws (s : State) : s.toReset.draws = s.draws := rfl

@[simp] theorem State.toReset_hazard (s : State) : s.toReset.hazard = State.reset.hazard := rfl

end Sys2Proof.Machine
end

