-- ==== Sys2Proof/Laws/Exec.lean ====
section
/-! SUPPORT. What each meaning and each step can do: if it answers a next state, then one of the listed
cases holds. -/

namespace Sys2Proof.Machine

variable {s t : State}

theorem execPad_next (h : execPad s = .next t) :
    (overflows s.messageLength = true ∧ t = s.raiseLengthOverflow) ∨
      (overflows s.messageLength = false ∧
        ∃ message, Memory.readBytes s.msg 0 s.messageLength = some message ∧
          t = ({ s with
            pm := Memory.writeBytes [] 0 (padBytes message)
            plen := BitVec.ofNat 62 (paddedLength s.messageLength)
            nblk := BitVec.ofNat Config.blkw (blockCount s.messageLength) }).goto Op.ldblk 0) := by
  unfold execPad at h
  split at h
  · next ho => cases h; exact .inl ⟨ho, rfl⟩
  · next ho =>
    split at h
    · cases h
    · next message hm => cases h; exact .inr ⟨by simpa using ho, message, hm, rfl⟩

theorem execLdblk_next (h : execLdblk s = .next t) :
    s.blockInRange = true ∧
      ∃ block, Memory.readWords s.pm s.blockAddress 16 = some block ∧
        t = ({ s with W := setLowWords s.W block }).goto Op.sched 16 := by
  unfold execLdblk at h
  split at h
  · next hr =>
    split at h
    · cases h
    · next block hb => cases h; exact ⟨hr, block, hb, rfl⟩
  · cases h

theorem execSched_next {i : BitVec 6} (h : execSched i s = .next t) :
    16 ≤ i.toNat ∧
      t = ({ s with W := s.W.set i.toNat (scheduleWord s.W i.toNat i.isLt) i.isLt }).goto
        (if i.toNat < 63 then Op.sched else Op.initwv) (if i.toNat < 63 then i + 1 else 0) := by
  unfold execSched indexOperand at h
  split at h
  · next h16 =>
    refine ⟨h16, ?_⟩
    injection h with h
    subst h
    split <;> rfl
  · cases h

theorem execInitwv_next (h : execInitwv s = .next t) :
    t = ({ s with wv := WorkingState.ofVector s.H }).goto Op.round 0 := by
  injection h with h
  exact h.symm

theorem execRound_next {i : BitVec 6} (h : execRound i s = .next t) :
    t = ({ s with wv := compressRound s.wv (K[i.toNat]'i.isLt) (s.W[i.toNat]'i.isLt) }).goto
      (if i.toNat < 63 then Op.round else Op.addback) (if i.toNat < 63 then i + 1 else 0) := by
  injection h with h
  subst h
  unfold indexOperand
  split <;> rfl

theorem execAddback_next (h : execAddback s = .next t) :
    t = ({ s with H := addBack s.H s.wv, blk := BitVec.ofNat Config.blkw (s.blk.toNat + 1) }).goto
      (if s.blk.toNat + 1 < s.nblk.toNat then Op.ldblk else Op.digest) 0 := by
  injection h with h
  subst h
  split <;> rfl

theorem execDigest_next (h : execDigest s = .next t) :
    (s.hazard = true ∧
      t = (({ s with dg := Memory.writeBytes s.dg 0 (s.freeBytes 32) }).advanceDraws 32).goto
        Op.halt 0) ∨
      (s.hazard = false ∧
        t = ({ s with dg := Memory.writeBytes s.dg 0 (digestBytes s.H) }).goto Op.halt 0) := by
  unfold execDigest at h
  split at h
  · next hz => cases h; exact .inl ⟨hz, rfl⟩
  · next hz => cases h; exact .inr ⟨by simpa using hz, rfl⟩

theorem execStart_next {len : BitVec Config.lenw} (h : execStart len s = .next t) :
    (s.uop = microWord Op.wait 0 ∧
      t = ({ s with mlen := len, H := IV, blk := 0, err := .noError, hazard := false }).goto
        Op.pad 0) ∨
      (s.uop ≠ microWord Op.wait 0 ∧ t = s) := by
  unfold execStart at h
  split at h
  · next hw => cases h; exact .inl ⟨hw, rfl⟩
  · next hw => cases h; exact .inr ⟨hw, rfl⟩

theorem hostWriteMessage_next {a : Nat} {b : Byte} (h : hostWriteMessage a b s = .next t) :
    a < Config.msgCap ∧
      ((s.phase = some .init ∧ t = { s with msg := Memory.write s.msg a b }) ∨
        (s.phase ≠ some .init ∧ t = writeDuringRun s a)) := by
  unfold hostWriteMessage at h
  split at h
  · next hc =>
    split at h
    · next hp => cases h; exact ⟨hc, .inl ⟨hp, rfl⟩⟩
    · next hp => cases h; exact ⟨hc, .inr ⟨hp, rfl⟩⟩
  · cases h

/-- A write outside the message store is refused. -/
theorem hostWriteMessage_outside {a : Nat} {b : Byte} (h : Config.msgCap ≤ a) :
    hostWriteMessage a b s = .refused .outsideMessageStore := by
  unfold hostWriteMessage
  rw [if_neg (by omega)]

theorem hostReadStatus_next (h : hostReadStatus s = .next t) :
    ∃ p, s.phase = some p ∧
      t = { s with seen := some (.status (phaseCode p) s.busy s.done s.fault (errorCode s.err)) } := by
  unfold hostReadStatus at h
  split at h
  · next p hp => cases h; exact ⟨p, hp, rfl⟩
  · cases h

theorem hostReadDigest_next {n : Fin 32} (h : hostReadDigest n s = .next t) :
    (∃ b, s.digestByte n = some b ∧ t = { s with seen := some (.digestByte n b) }) ∨
      (s.digestByte n = none ∧
        t = ({ s with seen := some (.digestByte n (Config.freeByte s.draws)) }).advanceDraws 1) := by
  unfold hostReadDigest at h
  split at h
  · next b hb => cases h; exact .inl ⟨b, hb, rfl⟩
  · next hb => cases h; exact .inr ⟨hb, rfl⟩

/-! ### The refusal of a reserved `UOP` -/

theorem nextAction_of_legal (h : isReserved s.uop = false) : s.nextAction = s.nextMove := by
  unfold State.nextAction
  rw [if_neg (by rw [h]; decide)]

theorem step_reserved (h : isReserved s.uop = true) : step s = .refused .reservedMicroOp := by
  unfold step State.nextAction
  rw [if_pos h]
  rfl

/-- A step that answers a next state starts at a legal `UOP`. -/
theorem step_next_legal (h : step s = .next t) : isReserved s.uop = false := by
  cases hr : isReserved s.uop with
  | false => rfl
  | true => rw [step_reserved hr] at h; cases h

/-- A step at a legal `UOP` performs the next move. -/
theorem step_of_legal (h : isReserved s.uop = false) :
    step s = perform s.nextMove.1 { s with moves := s.nextMove.2 } := by
  unfold step
  rw [nextAction_of_legal h]

/-- Everything a step does: it takes a move off the host's list, and then performs an instruction, or
resets, or makes one of the host's accesses, or does nothing. -/
theorem step_next (h : step s = .next t) :
    ∃ r : State, r = { s with moves := s.nextAction.2 } ∧
      ((∃ i, s.nextAction.1 = .perform i ∧ exec i r = .next t) ∨
        (s.nextAction.1 = .nothing ∧ t = r) ∨
        (s.nextAction.1 = .reset ∧ t = r.toReset) ∨
        (∃ a b, s.nextAction.1 = .writeMessage a b ∧ hostWriteMessage a b r = .next t) ∨
        (s.nextAction.1 = .readStatus ∧ hostReadStatus r = .next t) ∨
        (∃ n, s.nextAction.1 = .readDigest n ∧ hostReadDigest n r = .next t)) := by
  refine ⟨_, rfl, ?_⟩
  unfold step perform at h
  cases ha : s.nextAction.1 with
  | perform i => rw [ha] at h; exact .inl ⟨i, rfl, h⟩
  | reserved => rw [ha] at h; cases h
  | nothing => rw [ha] at h; cases h; exact .inr (.inl ⟨rfl, rfl⟩)
  | reset => rw [ha] at h; cases h; exact .inr (.inr (.inl ⟨rfl, rfl⟩))
  | writeMessage a b => rw [ha] at h; exact .inr (.inr (.inr (.inl ⟨a, b, rfl, h⟩)))
  | readStatus => rw [ha] at h; exact .inr (.inr (.inr (.inr (.inl ⟨rfl, h⟩))))
  | readDigest n => rw [ha] at h; exact .inr (.inr (.inr (.inr (.inr ⟨n, rfl, h⟩))))

/-! ### The outputs do not depend on the host's moves -/

@[simp] theorem phase_moves (s : State) (ms : List HostMove) :
    ({ s with moves := ms } : State).phase = s.phase := rfl

@[simp] theorem busy_moves (s : State) (ms : List HostMove) :
    ({ s with moves := ms } : State).busy = s.busy := rfl

@[simp] theorem done_moves (s : State) (ms : List HostMove) :
    ({ s with moves := ms } : State).done = s.done := rfl

@[simp] theorem fault_moves (s : State) (ms : List HostMove) :
    ({ s with moves := ms } : State).fault = s.fault := rfl

@[simp] theorem digestByte_moves (s : State) (ms : List HostMove) (n : Fin 32) :
    State.digestByte { s with moves := ms } n = s.digestByte n := rfl

/-! ### One host access, where it is the next move -/

theorem step_writeMessage {a : Nat} {b : Byte} {rest : List HostMove}
    (hl : isReserved s.uop = false) (h : s.moves = .writeMessage a b :: rest) :
    step s = hostWriteMessage a b { s with moves := rest } := by
  simp only [step_of_legal hl, State.nextMove, h, perform]

theorem step_readStatus {rest : List HostMove} (hl : isReserved s.uop = false)
    (h : s.moves = .readStatus :: rest) :
    step s = hostReadStatus { s with moves := rest } := by
  simp only [step_of_legal hl, State.nextMove, h, perform]

theorem step_readDigest {n : Fin 32} {rest : List HostMove} (hl : isReserved s.uop = false)
    (h : s.moves = .readDigest n :: rest) :
    step s = hostReadDigest n { s with moves := rest } := by
  simp only [step_of_legal hl, State.nextMove, h, perform]

/-! ### The order at one moment, case by case -/

theorem Moment.first_reset {m : Moment} {u : BitVec 10} (h : m.reset = true) :
    m.first u = (.reset, []) := by
  unfold Moment.first
  rw [if_pos h]

theorem Moment.first_clear {m : Moment} {u : BitVec 10} (h : m.reset = false)
    (hc : m.cmd.getLsbD 1 = true) : m.first u = (.perform .clear, m.afterClear) := by
  have hd : decodeCommand m.cmd m.len = .ok .clear := by
    unfold decodeCommand
    rw [if_pos hc]
  unfold Moment.first
  rw [if_neg (by rw [h]; decide), if_pos hc, hd]
  rfl

theorem Moment.first_sequencer {m : Moment} {u : BitVec 10} (h : m.reset = false)
    (hc : m.cmd.getLsbD 1 = false) (hs : m.sequencer = true) :
    m.first u = (actionOf (decodeMicro u), m.afterSequencer) := by
  unfold Moment.first
  rw [if_neg (by rw [h]; decide), if_neg (by rw [hc]; decide), if_pos hs]

theorem Moment.first_start {m : Moment} {u : BitVec 10} (h : m.reset = false) (hc : m.cmd = 0b01)
    (hs : m.sequencer = false) : m.first u = (.perform (.start m.len), []) := by
  unfold Moment.first
  rw [if_neg (by rw [h]; decide), if_neg (by rw [hc]; decide), if_neg (by rw [hs]; decide), hc]
  rfl

theorem Moment.first_nothing {m : Moment} {u : BitVec 10} (h : m.reset = false) (hc : m.cmd = 0b00)
    (hs : m.sequencer = false) : m.first u = (.nothing, []) := by
  unfold Moment.first
  rw [if_neg (by rw [h]; decide), if_neg (by rw [hc]; decide), if_neg (by rw [hs]; decide), hc]
  rfl

/-- The instruction a step performs: the micro-operation in `UOP`, or a host command. -/
theorem nextAction_perform {i : Instr} (h : s.nextAction.1 = .perform i) :
    decodeMicro s.uop = .ok i ∨ i = .clear ∨ ∃ len, i = .start len := by
  have micro : ∀ {u : BitVec 10}, actionOf (decodeMicro u) = .perform i → decodeMicro u = .ok i := by
    intro u hu
    unfold actionOf at hu
    split at hu <;> simp_all
  have cmd : ∀ {c : BitVec 2} {len : BitVec Config.lenw}, actionOf (decodeCommand c len) = .perform i →
      i = .clear ∨ ∃ len, i = .start len := by
    intro c len hc
    rcases decodeCommand_cases c len with ⟨_, e⟩ | ⟨_, e⟩ | ⟨_, e⟩ <;> rw [e] at hc <;>
      simp [actionOf] at hc
    · exact .inl hc.symm
    · exact .inr ⟨len, hc.symm⟩
  unfold State.nextAction at h
  split at h
  · cases h
  unfold State.nextMove at h
  split at h
  · exact .inl (micro h)
  · unfold Moment.first at h
    split at h
    · cases h
    · split at h
      · exact .inr (cmd h)
      · split at h
        · exact .inl (micro h)
        · exact .inr (cmd h)
  all_goals cases h

end Sys2Proof.Machine
end

