-- ==== Sys2Proof/Laws/Memory.lean ====
section
/-! SUPPORT. The laws of a byte space: what a read returns after a write, and that every operation
keeps the canonical form. -/

namespace Sys2Proof.Machine

@[simp] theorem Memory.read_nil (a : Nat) : Memory.read [] a = none := rfl

theorem Memory.read_write_same (m : Memory) (a : Nat) (b : Byte) :
    Memory.read (Memory.write m a b) a = some b := by
  induction m with
  | nil => simp [Memory.write, Memory.read]
  | cons c m ih =>
    obtain ⟨k, v⟩ := c
    simp only [Memory.write]
    split
    · simp [Memory.read]
    · split
      · simp [Memory.read]
      · simp [Memory.read, ih, show k ≠ a by omega]

theorem Memory.read_write_other (m : Memory) (a : Nat) (b : Byte) (x : Nat) (hx : x ≠ a) :
    Memory.read (Memory.write m a b) x = Memory.read m x := by
  induction m with
  | nil => simp [Memory.write, Memory.read, Memory.unlisted, hx.symm]
  | cons c m ih =>
    obtain ⟨k, v⟩ := c
    simp only [Memory.write]
    split
    · simp [Memory.read, hx.symm]
    · split
      · next h => simp [Memory.read, hx.symm, ← h]
      · simp [Memory.read, ih]

/-- A write puts in its own address and no other. -/
theorem Memory.mem_write {m : Memory} {a : Nat} {b : Byte} {c : Host.Cell}
    (h : c ∈ Memory.write m a b) : c.1 = a ∨ c ∈ m := by
  induction m with
  | nil => simp_all [Memory.write]
  | cons d m ih =>
    obtain ⟨k, v⟩ := d
    simp only [Memory.write] at h
    split at h
    · rcases List.mem_cons.1 h with rfl | h
      · exact .inl rfl
      · exact .inr h
    · split at h
      · rcases List.mem_cons.1 h with rfl | h
        · exact .inl rfl
        · exact .inr (List.mem_cons_of_mem _ h)
      · rcases List.mem_cons.1 h with rfl | h
        · exact .inr (List.mem_cons_self ..)
        · exact (ih h).imp id (List.mem_cons_of_mem _)

theorem Memory.write_wf {m : Memory} (a : Nat) (b : Byte) (h : Memory.wf m) :
    Memory.wf (Memory.write m a b) := by
  induction m with
  | nil => simp [Memory.write, Memory.wf]
  | cons c m ih =>
    obtain ⟨k, v⟩ := c
    obtain ⟨hk, hm⟩ := List.pairwise_cons.1 h
    simp only [Memory.write]
    split
    · next hlt =>
      refine List.pairwise_cons.2 ⟨fun y hy => ?_, h⟩
      rcases List.mem_cons.1 hy with rfl | hy
      · exact hlt
      · exact Nat.lt_trans hlt (hk y hy)
    · split
      · next heq => subst heq; exact List.pairwise_cons.2 ⟨hk, hm⟩
      · refine List.pairwise_cons.2 ⟨fun y hy => ?_, ih hm⟩
        rcases Memory.mem_write hy with hy | hy
        · show k < y.1; omega
        · exact hk y hy

theorem Memory.writeBytes_wf {m : Memory} (a : Nat) (bs : List Byte) (h : Memory.wf m) :
    Memory.wf (Memory.writeBytes m a bs) := by
  induction bs generalizing m a with
  | nil => exact h
  | cons b bs ih => exact ih _ (Memory.write_wf a b h)

/-- Everything a byte-sequence write does: inside the written range a read returns the byte written
there, outside it what it returned before. -/
theorem Memory.read_writeBytes (m : Memory) (a : Nat) (bs : List Byte) (x : Nat) :
    Memory.read (Memory.writeBytes m a bs) x =
      if a ≤ x ∧ x < a + bs.length then bs[x - a]? else Memory.read m x := by
  induction bs generalizing m a with
  | nil => simp [Memory.writeBytes]
  | cons b bs ih =>
    simp only [Memory.writeBytes, ih, List.length_cons]
    by_cases h : x = a
    · subst h; simp [Memory.read_write_same]
    · by_cases h1 : a + 1 ≤ x ∧ x < a + 1 + bs.length
      · rw [if_pos h1, if_pos (by omega), show x - a = (x - (a + 1)) + 1 by omega]; simp
      · rw [if_neg h1, if_neg (by omega), Memory.read_write_other _ _ _ _ h]

/-- Everything a byte-sequence read does: it answers exactly when every byte holds a value, and then
with those bytes in address order. -/
theorem Memory.readBytes_eq_some {m : Memory} {a n : Nat} {bs : List Byte} :
    Memory.readBytes m a n = some bs ↔
      bs.length = n ∧ ∀ j, j < n → Memory.read m (a + j) = bs[j]? := by
  induction n generalizing a bs with
  | zero => cases bs <;> simp [Memory.readBytes]
  | succ n ih =>
    simp only [Memory.readBytes]
    constructor
    · intro h
      split at h
      · cases h
      · next b hb =>
        split at h
        · cases h
        · next cs hcs =>
          cases h
          obtain ⟨hl, hr⟩ := ih.1 hcs
          refine ⟨by simp [hl], fun j hj => ?_⟩
          cases j with
          | zero => simpa using hb
          | succ j => simpa [Nat.add_assoc, Nat.add_comm 1] using hr j (by omega)
    · rintro ⟨hl, hr⟩
      cases bs with
      | nil => simp at hl
      | cons b cs =>
        have h0 : Memory.read m a = some b := by simpa using hr 0 (by omega)
        have h1 : Memory.readBytes m (a + 1) n = some cs := by
          refine ih.2 ⟨by simpa using hl, fun j hj => ?_⟩
          simpa [Nat.add_assoc, Nat.add_comm 1] using hr (j + 1) (by omega)
        simp [h0, h1]

/-- A byte-sequence read has no answer exactly when some byte holds no value. -/
theorem Memory.readBytes_eq_none {m : Memory} {a n : Nat} :
    Memory.readBytes m a n = none ↔ ∃ j, j < n ∧ Memory.read m (a + j) = none := by
  induction n generalizing a with
  | zero => simp [Memory.readBytes]
  | succ n ih =>
    simp only [Memory.readBytes]
    constructor
    · intro h
      split at h
      · next hb => exact ⟨0, by omega, hb⟩
      · split at h
        · next hcs =>
          obtain ⟨j, hj, hn⟩ := ih.1 hcs
          exact ⟨j + 1, by omega, by simpa [Nat.add_assoc, Nat.add_comm 1] using hn⟩
        · cases h
    · rintro ⟨j, hj, hn⟩
      split
      · rfl
      · next b hb =>
        cases j with
        | zero => simp_all
        | succ j =>
          have : Memory.readBytes m (a + 1) n = none :=
            ih.2 ⟨j, by omega, by simpa [Nat.add_assoc, Nat.add_comm 1] using hn⟩
          simp [this]

/-- What was written as a byte sequence is read back as it. -/
theorem Memory.readBytes_writeBytes (m : Memory) (a : Nat) (bs : List Byte) :
    Memory.readBytes (Memory.writeBytes m a bs) a bs.length = some bs := by
  refine Memory.readBytes_eq_some.2 ⟨rfl, fun j hj => ?_⟩
  rw [Memory.read_writeBytes, if_pos (by omega)]
  simp

end Sys2Proof.Machine
end

