-- ==== Sys2Proof/Laws/PerInstr.lean ====
section
/-! SUPPORT. The family of per-instruction lemmas "Written": what a well-formed instruction is written
as, for each constructor of `Instr`. -/

namespace Sys2Proof.Laws.Written

open Sys2Proof.Safety

/-- A well-formed micro-operation is written as one of the 120 legal values of `UOP` (R84); a host
command as a command word that asks for something, with one of its two bits set (R86). -/
def Statement (i : Instr) : Prop :=
  i.wf = true →
    match encode i with
    | .micro u => isMicro i = true ∧ LegalUop u
    | .command cmd _ => isMicro i = false ∧ (cmd = 0b01 ∨ cmd = 0b10)

theorem wait : Statement .wait := fun _ => ⟨rfl, by decide⟩

theorem pad : Statement .pad := fun _ => ⟨rfl, by decide⟩

theorem ldblk : Statement .ldblk := fun _ => ⟨rfl, by decide⟩

theorem sched (t : BitVec 6) : Statement (.sched t) := by
  intro h
  refine ⟨rfl, .inr (.inr (.inr (.inl ?_)))⟩
  have h16 : 16 ≤ t.toNat := by simpa [Instr.wf] using h
  have := t.isLt
  rw [microWord_toNat, show Op.sched.toNat = 3 from rfl]
  omega

theorem initwv : Statement .initwv := fun _ => ⟨rfl, by decide⟩

theorem round (t : BitVec 6) : Statement (.round t) := by
  intro _
  refine ⟨rfl, .inr (.inr (.inr (.inr (.inr (.inl ?_)))))⟩
  have := t.isLt
  rw [microWord_toNat, show Op.round.toNat = 5 from rfl]
  omega

theorem addback : Statement .addback := fun _ => ⟨rfl, by decide⟩

theorem digest : Statement .digest := fun _ => ⟨rfl, by decide⟩

theorem halt : Statement .halt := fun _ => ⟨rfl, by decide⟩

theorem fhalt : Statement .fhalt := fun _ => ⟨rfl, by decide⟩

theorem start (len : BitVec Config.lenw) : Statement (.start len) := fun _ => ⟨rfl, .inl rfl⟩

theorem clear : Statement .clear := fun _ => ⟨rfl, .inr rfl⟩

end Sys2Proof.Laws.Written
end

