-- ==== Sys2Proof/Tests/Slice0.lean ====
section
/-! SUPPORT. Small tests: the check on an ill-formed instruction, words written out from the spec's
encodings, one step of each instruction on values of 95_test_vectors.md (the section is named), and for
each obligation with hypotheses a witness that meets them. -/

namespace Sys2Proof.Tests

open Sys2Proof Sys2Proof.Machine Sys2Proof.Safety

/-! ### Helpers -/

/-- One field of the next state, if there is one. -/
def field {α : Type} (f : State → α) : Host.Outcome State Fault Refusal → Option α
  | .next t => some (f t)
  | .fault _ => none
  | .refused _ => none

/-- The fault an outcome ends in, if it does. -/
def faultOf : Host.Outcome State Fault Refusal → Option Fault
  | .next _ => none
  | .fault r => some r
  | .refused _ => none

/-- The refusal an outcome ends in, if it does. -/
def refusalOf : Host.Outcome State Fault Refusal → Option Refusal
  | .next _ => none
  | .fault _ => none
  | .refused r => some r

/-- After reset, but with this value of `UOP`. -/
def atUop (u : BitVec 10) : State := { State.reset with uop := u }

/-- Bytes in a byte space from address 0 on. -/
def bytesAt (bs : List Byte) : Memory := Memory.writeBytes [] 0 bs

/-- The message "abc" as bytes. -/
def abc : List Byte := [0x61, 0x62, 0x63]

/-- The padded message of "abc" (section 3.2). -/
def paddedAbc : List Byte := [0x61, 0x62, 0x63, 0x80] ++ List.replicate 59 0x00 ++ [0x18]

/-- The padded empty message (section 3.2). -/
def paddedEmpty : List Byte := [0x80] ++ List.replicate 63 0x00

/-- In Padding, with this message in `MSG` and its length in `MLEN`. -/
def padding (message : List Byte) : State :=
  { atUop 0x040 with mlen := BitVec.ofNat Config.lenw message.length, msg := bytesAt message, H := IV }

/-- At `LDBLK` of block `blk` of this padded message. -/
def loading (padded : List Byte) (blk : BitVec Config.blkw) : State :=
  { atUop 0x080 with
    pm := bytesAt padded
    plen := BitVec.ofNat 62 padded.length
    nblk := BitVec.ofNat Config.blkw (padded.length / 64)
    blk := blk }

/-- Eight words as working variables. -/
def working (a b c d e f g h : Word) : WorkingState :=
  { a := a, b := b, c := c, d := d, e := e, f := f, g := g, h := h }

/-- A moment of the host with nothing on the inputs but what is given. -/
def moment (reset : Bool) (cmd : BitVec 2) (len : BitVec Config.lenw) (sequencer : Bool) : Moment :=
  { reset := reset, cmd := cmd, len := len, sequencer := sequencer }

/-- `s` with the host's moves replaced. -/
def withMoves (s : State) (moves : List HostMove) : State := { s with moves := moves }

/-! ### Well-formedness -/

theorem test_wf_refuses_sched_15 : Instr.wf (.sched 15) = false := by decide

theorem test_wf_refuses_sched_0 : Instr.wf (.sched 0) = false := by decide

theorem test_wf_accepts_the_ends : Instr.wf (.sched 16) = true ∧ Instr.wf (.sched 63) = true ∧
    Instr.wf (.round 0) = true ∧ Instr.wf (.round 63) = true := by decide

/-! ### Decoding: words written out from the encodings of R82, {op, idx} -/

theorem test_decode_wait : decodeMicro 0b0000_000000 = .ok .wait := by rfl

theorem test_decode_pad : decodeMicro 0b0001_000000 = .ok .pad := by rfl

theorem test_decode_ldblk : decodeMicro 0b0010_000000 = .ok .ldblk := by rfl

/-- The row `001101tttt`, both ends. -/
theorem test_decode_sched_low : decodeMicro 0b0011_010000 = .ok (.sched 16) ∧
    decodeMicro 0b0011_011111 = .ok (.sched 31) := ⟨rfl, rfl⟩

/-- The row `00111ttttt`, both ends. -/
theorem test_decode_sched_high : decodeMicro 0b0011_100000 = .ok (.sched 32) ∧
    decodeMicro 0b0011_111111 = .ok (.sched 63) := ⟨rfl, rfl⟩

theorem test_decode_initwv : decodeMicro 0b0100_000000 = .ok .initwv := by rfl

/-- The row `0101tttttt`, both ends. -/
theorem test_decode_round : decodeMicro 0b0101_000000 = .ok (.round 0) ∧
    decodeMicro 0b0101_111111 = .ok (.round 63) := ⟨rfl, rfl⟩

theorem test_decode_addback : decodeMicro 0b0110_000000 = .ok .addback := by rfl

theorem test_decode_digest : decodeMicro 0b0111_000000 = .ok .digest := by rfl

theorem test_decode_halt : decodeMicro 0b1000_000000 = .ok .halt := by rfl

theorem test_decode_fhalt : decodeMicro 0b1001_000000 = .ok .fhalt := by rfl

/-- The command word is `clear` in bit 1 and `start` in bit 0 (R86). -/
theorem test_decode_commands : decodeCommand 0b00 7 = .error .noCommand ∧
    decodeCommand 0b01 7 = .ok (.start 7) ∧ decodeCommand 0b10 7 = .ok .clear ∧
    decodeCommand 0b11 7 = .ok .clear := ⟨rfl, rfl, rfl, rfl⟩

/-- Reserved values beside legal ones (section 10.1). -/
theorem test_decode_reserved : decodeMicro 0x001 = .error (.reserved 0x001) ∧
    decodeMicro 0x07F = .error (.reserved 0x07F) ∧ decodeMicro 0x0C0 = .error (.reserved 0x0C0) ∧
    decodeMicro 0x0CF = .error (.reserved 0x0CF) ∧ decodeMicro 0x101 = .error (.reserved 0x101) ∧
    decodeMicro 0x280 = .error (.reserved 0x280) := ⟨rfl, rfl, rfl, rfl, rfl, rfl⟩

/-- The rows of the opcode table, as its words number their bits. -/
theorem test_table_words : decodeTableWord 16 0x0D0 = some (.sched 16) ∧
    decodeTableWord 16 0x0E0 = some (.sched 32) ∧ decodeTableWord 16 0x140 = some (.round 0) ∧
    decodeTableWord 8 1 = some (.start 0) ∧ decodeTableWord 8 2 = some .clear ∧
    decodeTableWord 8 3 = some .clear ∧ decodeTableWord 16 0x0C0 = none ∧
    decodeTableWord 16 0x400 = none ∧ decodeTableWord 8 4 = none := by decide

/-! ### Placing an instruction -/

/-- `ROUND 0` placed after reset is performed: the next `UOP` is `(ROUND, 1)`. -/
theorem test_place_micro : field (·.uop) (step (State.reset.withFetchWord 16 0x140)) = some 0x141 := by
  decide

/-- `START` placed after reset is performed. -/
theorem test_place_command : field (·.uop) (step (State.reset.withFetchWord 8 1)) = some 0x040 := by
  decide

/-! ### WAIT, HALT, FHALT (section 10.2) -/

theorem test_wait_stays : field (·.uop) (exec .wait (atUop 0x000)) = some 0x000 := by decide

theorem test_halt_stays : field (·.uop) (exec .halt (atUop 0x200)) = some 0x200 := by decide

/-- `ERR` keeps the value 1 (R186). -/
theorem test_fhalt_keeps_err :
    field (fun t => (t.uop, t.err)) (exec .fhalt { atUop 0x240 with err := .lengthOverflow }) =
      some (0x240, .lengthOverflow) := by decide

/-! ### PAD (section 3) -/

theorem test_pad_abc :
    field (fun t => Memory.readBytes t.pm 0 64) (exec .pad (padding abc)) = some (some paddedAbc) ∧
    field (fun t => (t.plen, t.nblk, t.uop)) (exec .pad (padding abc)) = some (64, 1, 0x080) := by
  decide

/-- `L` = 2^61 is refused, though the product `8·L` wraps to 0 in 64 bits; `PLEN` is not written. -/
theorem test_pad_overflow :
    field (fun t => (t.err, t.uop, t.plen)) (exec .pad { padding abc with mlen := 2305843009213693952 }) =
      some (.lengthOverflow, 0x240, 64) := by decide

/-- The table of section 3.1: `k` and `P` at the ends of its ranges. -/
theorem test_pad_sizes : [0, 3, 55, 56, 63, 64, 119, 120, 2305843009213693951].map zeroFill =
      [55, 52, 0, 63, 56, 55, 0, 63, 56] ∧
    [0, 3, 55, 56, 63, 64, 119, 120, 2305843009213693951].map paddedLength =
      [64, 64, 64, 128, 128, 128, 128, 192, 2305843009213694016] := by decide

/-! ### LDBLK (section 6) -/

theorem test_ldblk_byte_order :
    field (fun t => (t.W[0], t.W[15], t.uop))
      (exec .ldblk (loading ((List.range 64).map (BitVec.ofNat 8)) 0)) =
      some (0x00010203, 0x3c3d3e3f, 0x0D0) := by decide

/-- The second block of the padded message of 56 bytes `61`: fifteen zero words, then `000001c0`. -/
theorem test_ldblk_second_block :
    field (fun t => (t.W[0], t.W[14], t.W[15])) (exec .ldblk { atUop 0x080 with
      pm := Memory.writeBytes [] 64 (List.replicate 62 0x00 ++ [0x01, 0xC0])
      plen := 128
      nblk := 2
      blk := 1 }) = some (0x00000000, 0x00000000, 0x000001c0) := by decide

/-! ### SCHED (section 7) -/

/-- "S3 block 0", `t` = 16. -/
theorem test_sched_16 :
    field (fun t => (t.W[16], t.uop)) (exec (.sched 16) { atUop 0x0D0 with
      W := (((State.reset.W.set 0 0x61626364).set 1 0x62636465).set 9 0x6a6b6c6d).set 14 0x80000000 }) =
      some (0xeb8012ad, 0x0D1) := by decide

/-- "abc", `t` = 63, the last: `UOP` goes to `(INITWV, 0)`. -/
theorem test_sched_63 :
    field (fun t => (t.W[63], t.uop)) (exec (.sched 63) { atUop 0x0FF with
      W := (((State.reset.W.set 47 0x065c43da).set 48 0xfb3e89cb).set 56 0xef57b9cd).set 61 0x668b2ff8 }) =
      some (0x12b1edeb, 0x100) := by decide

/-! ### INITWV, ROUND, ADDBACK (sections 5 and 8) -/

theorem test_initwv_order :
    field (fun t => (t.wv, t.uop)) (exec .initwv { atUop 0x100 with H := IV }) =
      some (working 0x6a09e667 0xbb67ae85 0x3c6ef372 0xa54ff53a 0x510e527f 0x9b05688c 0x1f83d9ab
        0x5be0cd19, 0x140) := by decide

/-- Section 5, `t` = 0. -/
theorem test_round_0 :
    field (fun t => (t.wv, t.uop)) (exec (.round 0) { atUop 0x140 with
      wv := working 0x6a09e667 0xbb67ae85 0x3c6ef372 0xa54ff53a 0x510e527f 0x9b05688c 0x1f83d9ab 0x5be0cd19
      W := State.reset.W.set 0 0x61626380 }) =
      some (working 0x5d6aebcd 0x6a09e667 0xbb67ae85 0x3c6ef372 0xfa2a4622 0x510e527f 0x9b05688c
        0x1f83d9ab, 0x141) := by decide

/-- Section 5, `t` = 63, the last: `UOP` goes to `(ADDBACK, 0)`. -/
theorem test_round_63 :
    field (fun t => (t.wv, t.uop)) (exec (.round 63) { atUop 0x17F with
      wv := working 0xd39a2165 0x04d24d6c 0xb85e2ce9 0xb6ae8fff 0xfb121210 0x948d25b6 0x961f4894 0xb21bad3d
      W := State.reset.W.set 63 0x12b1edeb }) =
      some (working 0x506e3058 0xd39a2165 0x04d24d6c 0xb85e2ce9 0x5ef50f24 0xfb121210 0x948d25b6
        0x961f4894, 0x180) := by decide

/-- Section 5; the last block of one. -/
theorem test_addback_last :
    field (fun t => (t.H.toList, t.blk, t.uop)) (exec .addback { atUop 0x180 with
      H := IV
      wv := working 0x506e3058 0xd39a2165 0x04d24d6c 0xb85e2ce9 0x5ef50f24 0xfb121210 0x948d25b6 0x961f4894
      nblk := 1 }) =
      some ([0xba7816bf, 0x8f01cfea, 0x414140de, 0x5dae2223, 0xb00361a3, 0x96177a9c, 0xb410ff61,
        0xf20015ad], 1, 0x1C0) := by decide

/-- Section 8.5 and 10.2: no carry into the next word, and the branch back where a block is left. -/
theorem test_addback_wraps_and_loops :
    field (fun t => (t.H[0], t.H[1], t.blk, t.uop)) (exec .addback { atUop 0x180 with
      H := State.reset.H.set 0 0xffffffff
      wv := working 1 0 0 0 0 0 0 0
      nblk := 2 }) = some (0x00000000, 0x00000000, 1, 0x080) := by decide

/-! ### DIGEST (section 9) -/

theorem test_digest_order :
    field (fun t => (Memory.readBytes t.dg 0 32, t.uop)) (exec .digest { atUop 0x1C0 with
      H := #v[0x01020304, 0x05060708, 0x090a0b0c, 0x0d0e0f10, 0x11121314, 0x15161718, 0x191a1b1c,
        0x1d1e1f20] }) =
      some (some ((List.range 32).map fun n => BitVec.ofNat 8 (n + 1)), 0x200) := by decide

/-- Leading zero bytes are kept. -/
theorem test_digest_zero_bytes :
    field (fun t => Memory.readBytes t.dg 0 12) (exec .digest { atUop 0x1C0 with
      H := #v[0x00000000, 0x00000001, 0x00000100, 0x00010000, 0x01000000, 0x80000000, 0x000000ff,
        0xff000000] }) = some (some [0, 0, 0, 0, 0, 0, 0, 1, 0, 0, 1, 0]) := by decide

/-! ### START, CLEAR (section 10.4) -/

theorem test_start_accepted :
    field (fun t => (t.mlen, t.H.toList, t.blk, t.err, t.uop)) (exec (.start 3) (atUop 0x000)) =
      some (3, [0x6a09e667, 0xbb67ae85, 0x3c6ef372, 0xa54ff53a, 0x510e527f, 0x9b05688c, 0x1f83d9ab,
        0x5be0cd19], 0, .noError, 0x040) := by decide

/-- A `START` while busy is ignored. -/
theorem test_start_ignored :
    field (fun t => (t.mlen, t.uop)) (exec (.start 5) { atUop 0x0E5 with mlen := 3 }) =
      some (3, 0x0E5) := by decide

theorem test_clear_in_fault :
    field (fun t => (t.uop, t.err)) (exec .clear { atUop 0x240 with err := .lengthOverflow }) =
      some (0x000, .noError) := by decide

/-- `CLEAR` leaves `MSG` and empties `DG`. -/
theorem test_clear_bytes :
    field (fun t => (Memory.read t.msg 0, Memory.read t.dg 0)) (exec .clear
      { atUop 0x200 with msg := bytesAt abc, dg := bytesAt [0xba] }) = some (some 0x61, none) := by
  decide

/-! ### The host's other moves -/

/-- Section 10.3, the row `1c0`: phase Done, and still busy. -/
theorem test_status_digest :
    field (·.seen) (step (withMoves (atUop 0x1C0) [.readStatus])) =
      some (some (.status 3 true false false 0)) := by decide

/-- Section 10.3, the row `240`, with `ERR` = 1. -/
theorem test_status_fault :
    field (·.seen) (step (withMoves { atUop 0x240 with err := .lengthOverflow } [.readStatus])) =
      some (some (.status 4 false false true 1)) := by decide

/-- R198, `done` = 1. -/
theorem test_read_digest :
    field (·.seen) (step (withMoves { atUop 0x200 with dg := bytesAt [0xba, 0x78] } [.readDigest 1])) =
      some (some (.digestByte 1 0x78)) := by decide

/-- R199, in Init. -/
theorem test_write_message :
    field (fun t => Memory.read t.msg 0) (step (withMoves (atUop 0x000) [.writeMessage 0 0x62])) =
      some (some 0x62) := by decide

/-! ### Word operations (section 4) -/

theorem test_sigma : s0 0x12345678 = 0xe7fce6ee ∧ s1 0x12345678 = 0xa1f78649 ∧
    S0 0x12345678 = 0x66146474 ∧ S1 0x12345678 = 0x3561abda := by decide

theorem test_rotate_and_shift : rotr 0x80000001 7 = 0x03000000 ∧ rotr 0x12345678 25 = 0x1a2b3c09 ∧
    shr 0x80000001 3 = 0x10000000 ∧ shr 0xffffffff 10 = 0x003fffff := by decide

theorem test_ch_maj : ch 0xf0f0f0f0 0xcccccccc 0xaaaaaaaa = 0xcacacaca ∧
    maj 0xf0f0f0f0 0xcccccccc 0xaaaaaaaa = 0xe8e8e8e8 := by decide

/-! ### Witnesses: for each obligation with hypotheses, values that meet them -/

/-- An outcome that has a field is a next state. -/
theorem next_of_field {o : Host.Outcome State Fault Refusal} (h : (field id o).isSome = true) :
    ∃ t, o = .next t := by
  cases o with
  | next t => exact ⟨t, rfl⟩
  | fault r => cases h
  | refused r => cases h

theorem witness_DecodeOfEncode : Instr.wf (.sched 16) = true ∧ Instr.wf (.sched 63) = true ∧
    Instr.wf (.round 63) = true ∧ Instr.wf (.start 0xffffffffffffffff) = true := by decide

theorem witness_EncodeOfDecode : decode (.micro 0x0D0) = .ok (.sched 16) ∧
    decode (.command 0b11 3) = .ok .clear ∧ decode (.command 0b01 3) = .ok (.start 3) :=
  ⟨rfl, rfl, rfl⟩

theorem witness_StepRunsMicroOperation : (atUop 0x0FF).moves = [] ∧
    decodeMicro (atUop 0x0FF).uop = .ok (.sched 63) ∧ Instr.wf (.sched 63) = true :=
  ⟨rfl, rfl, rfl⟩

theorem witness_StepRunsHostCommand :
    LegalUop (withMoves (atUop 0x17F) [command 0b01 3, .readStatus]).uop ∧
      (withMoves (atUop 0x17F) [command 0b01 3, .readStatus]).moves =
        command 0b01 3 :: [.readStatus] ∧
      decodeCommand 0b01 3 = .ok (.start 3) := ⟨by decide, rfl, rfl⟩

theorem witness_PlacedInstructionRuns :
    (Instr.wf (.sched 16) = true ∧ encode (.sched 16) = .micro 0x0D0) ∧
    (Instr.wf .clear = true ∧ encode .clear = .command 0b10 0 ∧ LegalUop (atUop 0x240).uop) :=
  ⟨⟨rfl, rfl⟩, ⟨rfl, rfl, by decide⟩⟩

/-- The ends of the three kinds of reserved value (R85), and a step that answers. -/
theorem witness_ReservedUopIsRefused : ReservedUop (atUop 0x280).uop ∧ ReservedUop (atUop 0x3FF).uop ∧
    ReservedUop (atUop 0x0C0).uop ∧ ReservedUop (atUop 0x0CF).uop ∧ ReservedUop (atUop 0x001).uop ∧
    ReservedUop (atUop 0x27F).uop ∧ ∃ t, step (atUop 0x0FF) = .next t :=
  ⟨by decide, by decide, by decide, by decide, by decide, by decide, next_of_field (by decide)⟩

/-- R85: a state whose `UOP` is reserved has no next state, though a `CLEAR` or the reset input is
pending. -/
theorem test_reserved_state_refuses :
    refusalOf (step (withMoves (atUop 0x3FF) [command 0b10 0])) = some .reservedMicroOp ∧
    refusalOf (step (withMoves (atUop 0x001) [.inputs (moment true 0 0 false)])) =
      some .reservedMicroOp := by decide

theorem witness_OrderAtOneMoment :
    LegalUop (withMoves (atUop 0x040) [.inputs (moment false 0b11 3 true)]).uop ∧
    (withMoves (atUop 0x040) [.inputs (moment false 0b11 3 true)]).moves =
      .inputs (moment false 0b11 3 true) :: [] := ⟨by decide, rfl⟩

theorem witness_OrderAtOneMoment_reset :
    (moment true 0b11 3 true).reset = true := rfl

theorem witness_OrderAtOneMoment_clear :
    (moment false 0b10 3 true).reset = false ∧ (moment false 0b10 3 true).cmd.getLsbD 1 = true ∧
      (moment false 0b11 3 false).cmd.getLsbD 1 = true := by decide

theorem witness_OrderAtOneMoment_sequencer :
    (moment false 0b01 3 true).reset = false ∧ (moment false 0b01 3 true).cmd.getLsbD 1 = false ∧
      (moment false 0b01 3 true).sequencer = true ∧ decodeMicro (atUop 0x040).uop = .ok .pad :=
  ⟨rfl, rfl, rfl, rfl⟩

theorem witness_OrderAtOneMoment_start :
    (moment false 0b01 3 false).reset = false ∧ (moment false 0b01 3 false).cmd = 0b01 ∧
      (moment false 0b01 3 false).sequencer = false := ⟨rfl, rfl, rfl⟩

theorem witness_OrderAtOneMoment_nothing :
    (moment false 0b00 3 false).reset = false ∧ (moment false 0b00 3 false).cmd = 0b00 ∧
      (moment false 0b00 3 false).sequencer = false := ⟨rfl, rfl, rfl⟩

theorem witness_ClearWinsOverRaisingPad : (atUop 0x040).uop = 0x040 ∧
    8 * ({ atUop 0x040 with mlen := 2305843009213693952 } : State).mlen.toNat > 2 ^ 64 - 1 ∧
      (0b10 : BitVec 2).getLsbD 1 = true ∧ (0b11 : BitVec 2).getLsbD 1 = true := by decide

/-- The bounds of the amounts and of the bit numbers, at both ends. -/
theorem witness_word_operations : (1 ≤ 1 ∧ 1 ≤ 31) ∧ (1 ≤ 31 ∧ 31 ≤ 31) ∧ 31 < 32 ∧ 28 + 3 ≤ 31 ∧
    ¬ 29 + 3 ≤ 31 := by decide

/-- The largest length that fits and the smallest that does not. -/
theorem witness_overflow_bound : 8 * (2305843009213693951 : BitVec 64).toNat ≤ 2 ^ 64 - 1 ∧
    8 * (2305843009213693952 : BitVec 64).toNat > 2 ^ 64 - 1 := by decide

theorem witness_PadWritesPaddedMessage : 8 * abc.length ≤ 2 ^ 64 - 1 ∧
    (padding abc).mlen.toNat = abc.length ∧ Holds (padding abc).msg 0 abc := by
  unfold Holds
  decide

/-- The four clauses of the closed form, at the ends of their ranges for `L` = 3, `P` = 64. -/
theorem witness_PadClosedForm : 8 * (padding abc).mlen.toNat ≤ 2 ^ 64 - 1 ∧
    (∃ t, exec .pad (padding abc) = .next t) ∧
    field (fun t => t.plen.toNat) (exec .pad (padding abc)) = some 64 ∧
    (2 < (padding abc).mlen.toNat ∧ 3 = (padding abc).mlen.toNat ∧ (padding abc).mlen.toNat < 4 ∧
      55 < 64 - 8 ∧ 64 - 8 ≤ 56 ∧ 63 < 64) :=
  ⟨by decide, next_of_field (by decide), by decide, by decide⟩

theorem witness_PaddedLengthIsMinimal : 8 * (padding abc).mlen.toNat ≤ 2 ^ 64 - 1 ∧
    (∃ t, exec .pad (padding abc) = .next t) ∧ 64 % 64 = 0 ∧ (padding abc).mlen.toNat + 9 ≤ 64 :=
  ⟨by decide, next_of_field (by decide), by decide, by decide⟩

theorem witness_PaddingIsInjective : 8 * abc.length ≤ 2 ^ 64 - 1 ∧ padBytes abc = padBytes abc :=
  ⟨by decide, rfl⟩

theorem witness_OverflowEntry :
    8 * ({ padding abc with mlen := 2305843009213693952 } : State).mlen.toNat > 2 ^ 64 - 1 := by decide

theorem witness_OnlyPadRaises :
    (padding abc).err = .noError ∧
    field (·.err) (exec .pad { padding abc with mlen := 2305843009213693952 }) =
      some .lengthOverflow := by decide

theorem witness_PadStopsOnUnwrittenMessage :
    8 * ({ padding abc with mlen := 4 } : State).mlen.toNat ≤ 2 ^ 64 - 1 ∧
    3 < ({ padding abc with mlen := 4 } : State).mlen.toNat ∧
    Memory.read ({ padding abc with mlen := 4 } : State).msg 3 = none := by decide

theorem witness_LdblkLoadsBlock :
    (loading paddedAbc 0).blk.toNat < (loading paddedAbc 0).nblk.toNat ∧
    (loading paddedAbc 0).plen.toNat = 64 * (loading paddedAbc 0).nblk.toNat ∧
    ∀ k, k < 64 → Memory.read (loading paddedAbc 0).pm (64 * (loading paddedAbc 0).blk.toNat + k) =
      some (paddedAbc.getD k 0) := by decide

theorem witness_LdblkStops_range :
    (loading paddedAbc 1).nblk.toNat ≤ (loading paddedAbc 1).blk.toNat := by decide

theorem witness_LdblkStops_unwritten :
    (atUop 0x080).blk.toNat < (atUop 0x080).nblk.toNat ∧
    (atUop 0x080).plen.toNat = 64 * (atUop 0x080).nblk.toNat ∧ 63 < 64 ∧
    Memory.read (atUop 0x080).pm (64 * (atUop 0x080).blk.toNat + 63) = none := by decide

theorem witness_SchedComputesWord : (16 < 64 ∧ 16 ≤ 16) ∧ (63 < 64 ∧ 16 ≤ 63) := by decide

theorem witness_SchedBelowSixteenIsRefused : (15 : BitVec 6).toNat < 16 ∧ (0 : BitVec 6).toNat < 16 := by
  decide

/-- For `ExpandLeavesSchedule` and `BlockCompresses`. -/
theorem witness_block : (loading paddedAbc 0).moves = [] ∧ (loading paddedAbc 0).uop = 0x080 ∧
    (loading paddedAbc 0).blk.toNat < (loading paddedAbc 0).nblk.toNat ∧
    (loading paddedAbc 0).plen.toNat = 64 * (loading paddedAbc 0).nblk.toNat ∧
    Memory.readWords (loading paddedAbc 0).pm (64 * (loading paddedAbc 0).blk.toNat) 16 =
      some ([0x61626380] ++ List.replicate 14 0 ++ [0x00000018]) := by decide

/-- With the temporaries of section 5, `t` = 0. -/
theorem witness_RoundUpdatesWorkingVariables :
    (0x54da50e8 : Word) = 0x5be0cd19 + S1 0x510e527f + ch 0x510e527f 0x9b05688c 0x1f83d9ab + K[0] +
      0x61626380 ∧
    (0x08909ae5 : Word) = S0 0x6a09e667 + maj 0x6a09e667 0xbb67ae85 0x3c6ef372 := by decide

theorem witness_AddbackAddsAndBranches : (atUop 0x180).blk.toNat + 1 < 2 ^ Config.blkw := by decide

theorem witness_DigestWritesHashState : (atUop 0x1C0).hazard = false := rfl

theorem witness_DigestAfterMessageWrite :
    field (·.hazard) (step (withMoves (padding abc) [.writeMessage 0 0x62])) = some true := by decide

theorem witness_StartBeginsOrIsIgnored : (atUop 0x000).uop = 0x000 ∧ (atUop 0x200).uop ≠ 0x000 := by
  decide

theorem witness_ClearGivesResetState : (0b10 : BitVec 2).getLsbD 1 = true ∧
    (0b11 : BitVec 2).getLsbD 1 = true := by decide

theorem witness_ResetInput :
    LegalUop (withMoves (atUop 0x15F) [.inputs (moment true 0 0 false)]).uop ∧
    (withMoves (atUop 0x15F) [.inputs (moment true 0 0 false)]).moves =
      .inputs (moment true 0 0 false) :: [] ∧ (moment true 0 0 false).reset = true :=
  ⟨by decide, rfl, rfl⟩

/-- The six rows of the status table. -/
theorem witness_StatusOutputs : opOf (atUop 0x000).uop = 0 ∧ opOf (atUop 0x040).uop = 1 ∧
    2 ≤ (opOf (atUop 0x080).uop).toNat ∧ (opOf (atUop 0x180).uop).toNat ≤ 6 ∧
    opOf (atUop 0x1C0).uop = 7 ∧ opOf (atUop 0x200).uop = 8 ∧ opOf (atUop 0x240).uop = 9 := by decide

theorem witness_StatusRead : (withMoves (atUop 0x17F) [.readStatus]).moves = .readStatus :: [] ∧
    LegalUop (withMoves (atUop 0x17F) [.readStatus]).uop := ⟨rfl, by decide⟩

theorem witness_DigestRead_done : LegalUop (atUop 0x200).uop ∧
    ({ atUop 0x200 with dg := bytesAt [0xba] } : State).done = true ∧
    Memory.read ({ atUop 0x200 with dg := bytesAt [0xba] } : State).dg (0 : Fin 32).val =
      some 0xba := by decide

theorem witness_DigestRead_before : LegalUop (atUop 0x1C0).uop ∧ (atUop 0x1C0).done = false := by
  decide

/-- The last byte of the message store, and the first address beyond it. -/
theorem witness_MessageWriteInInit : LegalUop (atUop 0x000).uop ∧
    (Config.lastMessageByte < Config.msgCap ∧ (atUop 0x000).phase = some .init) ∧
      Config.msgCap ≤ Config.msgCap :=
  ⟨by decide, ⟨Nat.lt_succ_self _, by decide⟩, Nat.le_refl _⟩

theorem witness_MessageWriteOutsideInit : LegalUop (atUop 0x200).uop ∧
    LegalUop (padding abc).uop ∧ Config.lastMessageByte < Config.msgCap ∧
    (padding abc).phase ≠ some .init ∧ (atUop 0x200).phase ≠ some .init ∧
    (atUop 0x200).done = true ∧ (padding abc).done = false :=
  ⟨by decide, by decide, Nat.lt_succ_self _, by decide, by decide, by decide, by decide⟩

/-- For `WhoWritesWhichRegister` and `OnlyStoredBytesChange`. -/
theorem witness_frames : (∃ t, exec .pad (padding abc) = .next t) ∧ Instr.pad ≠ .clear ∧
    Instr.pad ≠ .initwv ∧ Instr.pad ≠ .addback ∧ Instr.pad ≠ .ldblk ∧ Instr.pad ≠ .digest ∧
    (∃ t, exec (.sched 16) (atUop 0x0D0) = .next t) ∧ Instr.sched 16 ≠ .pad :=
  ⟨next_of_field (by decide), by decide, by decide, by decide, by decide, by decide,
    next_of_field (by decide), by decide⟩

/-- The rows of the table, the indexed ones at both ends, with a step that answers. -/
theorem witness_NextUopTable (u : BitVec 10)
    (h : u ∈ [0x000, 0x0D0, 0x0FE, 0x0FF, 0x100, 0x140, 0x17E, 0x17F, 0x180, 0x1C0, 0x200, 0x240]) :
    (atUop u).moves = [] ∧ ∃ t, step (atUop u) = .next t :=
  ⟨rfl, next_of_field (by
    revert u
    decide)⟩

theorem witness_NextUopTable_pad : (∃ t, step (padding abc) = .next t) ∧
    (∃ t, step { padding abc with mlen := 2305843009213693952 } = .next t) ∧
    ∃ t, step (loading paddedAbc 0) = .next t :=
  ⟨next_of_field (by decide), next_of_field (by decide), next_of_field (by decide)⟩

theorem witness_NextUopTable_addback :
    (atUop 0x180).blk.toNat + 1 = (atUop 0x180).nblk.toNat ∧
    ({ atUop 0x180 with nblk := 2 } : State).blk.toNat + 1 <
      ({ atUop 0x180 with nblk := 2 } : State).nblk.toNat := by decide

/-- A state of Padding meets the invariant. -/
theorem inv_padding : Inv (padding abc) where
  legal := by decide
  msg_wf := by decide
  pm_wf := by decide
  dg_wf := by decide
  plen_eq := by decide
  nblk_pos := by decide
  blk_before := by decide
  blk_lt := by decide
  blk_eq := by decide
  pm_written := fun h => absurd h (by decide)
  dg_written := fun h => absurd h (by decide)
  err_iff := by decide
  hazard_init := by decide

theorem witness_StepKeepsInv : Inv (padding abc) ∧ ∃ t, step (padding abc) = .next t :=
  ⟨inv_padding, next_of_field (by decide)⟩

/-- Padding, with one byte more in `MLEN` than the host wrote. -/
theorem inv_padding_short : Inv { padding abc with mlen := 4 } where
  legal := by decide
  msg_wf := by decide
  pm_wf := by decide
  dg_wf := by decide
  plen_eq := by decide
  nblk_pos := by decide
  blk_before := by decide
  blk_lt := by decide
  blk_eq := by decide
  pm_written := fun h => absurd h (by decide)
  dg_written := fun h => absurd h (by decide)
  err_iff := by decide
  hazard_init := by decide

/-- Padding, with the host about to write outside the message store. -/
theorem inv_padding_outside : Inv (withMoves (padding abc) [.writeMessage Config.msgCap 0]) where
  legal := by decide
  msg_wf := by decide
  pm_wf := by decide
  dg_wf := by decide
  plen_eq := by decide
  nblk_pos := by decide
  blk_before := by decide
  blk_lt := by decide
  blk_eq := by decide
  pm_written := fun h => absurd h (by decide)
  dg_written := fun h => absurd h (by decide)
  err_iff := by decide
  hazard_init := by decide

/-- Each of the three ends occurs in a state that meets the invariant. -/
theorem witness_InvLeavesOnlyHostStops :
    (Inv (padding abc) ∧ ∃ t, step (padding abc) = .next t) ∧
    (Inv { padding abc with mlen := 4 } ∧
      faultOf (step { padding abc with mlen := 4 }) = some .unwrittenMessageByte) ∧
    (Inv (withMoves (padding abc) [.writeMessage Config.msgCap 0]) ∧
      step (withMoves (padding abc) [.writeMessage Config.msgCap 0]) =
        .refused .outsideMessageStore) :=
  ⟨⟨inv_padding, next_of_field (by decide)⟩, ⟨inv_padding_short, by decide⟩,
    ⟨inv_padding_outside,
      (step_writeMessage rfl rfl).trans (hostWriteMessage_outside (Nat.le_refl _))⟩⟩

/-- At `LDBLK` of the empty message's one block. -/
def loadingEmpty : State := { loading paddedEmpty 0 with H := IV }

theorem inv_loadingEmpty : Inv loadingEmpty where
  legal := by decide
  msg_wf := by decide
  pm_wf := by decide
  dg_wf := by decide
  plen_eq := by decide
  nblk_pos := by decide
  blk_before := by decide
  blk_lt := by decide
  blk_eq := by decide
  pm_written := fun _ => by decide
  dg_written := fun h => absurd h (by decide)
  err_iff := by decide
  hazard_init := by decide

theorem dataflow_loadingEmpty : Dataflow [] loadingEmpty where
  fits := by decide
  mlen_eq := by decide
  nblk_eq := by decide
  pm_eq := by unfold Holds; decide
  ldblk := fun _ => rfl
  sched := fun h => absurd h (by decide)
  initwv := fun h => absurd h (by decide)
  round := fun h => absurd h (by decide)
  addback := fun h => absurd h (by decide)
  digest := fun h => absurd h (by decide)
  halt := fun h => absurd h (by decide)

/-- At `HALT` of a run of the empty message, with these bytes in `DG` and no message write made. -/
def halted (digest : List Byte) : State :=
  { loadingEmpty with uop := 0x200, blk := 1, dg := bytesAt digest }

/-- The end of that run: `DG` holds the hash. -/
def haltedEmpty : State := halted (hashOf [])

theorem inv_halted (digest : List Byte) (h : digest.length = 32) : Inv (halted digest) where
  legal := (by decide : LegalUop 0x200)
  msg_wf := List.Pairwise.nil
  pm_wf := inv_loadingEmpty.pm_wf
  dg_wf := Memory.writeBytes_wf (m := []) 0 digest List.Pairwise.nil
  plen_eq := inv_loadingEmpty.plen_eq
  nblk_pos := inv_loadingEmpty.nblk_pos
  blk_before := fun h => absurd h
    (by decide : ¬ ((atUop 0x200).phase = some .init ∨ (atUop 0x200).phase = some .padding))
  blk_lt := fun h => absurd h (by decide : (atUop 0x200).phase ≠ some .perBlockProcessing)
  blk_eq := fun _ => rfl
  pm_written := fun h => absurd h (by decide : (atUop 0x200).phase ≠ some .perBlockProcessing)
  dg_written := fun _ a ha => by
    show (Memory.read (Memory.writeBytes [] 0 digest) a).isSome
    rw [Memory.read_writeBytes, if_pos (by omega)]
    simpa using by omega
  err_iff := (by decide :
    (atUop 0x200).err = .lengthOverflow ↔ (atUop 0x200).phase = some .fault)
  hazard_init := fun _ => rfl

theorem read_hashOf_empty (a : Nat) (h : a < 32) :
    Memory.read haltedEmpty.dg a = (hashOf [])[a]? := by
  show Memory.read (Memory.writeBytes [] 0 (hashOf [])) a = _
  rw [Memory.read_writeBytes, if_pos ⟨Nat.zero_le a, by simpa [hashOf] using h⟩, Nat.sub_zero]

theorem inv_haltedEmpty : Inv haltedEmpty := inv_halted (hashOf []) (digestBytes_length _)

theorem dataflow_haltedEmpty : Dataflow [] haltedEmpty where
  fits := dataflow_loadingEmpty.fits
  mlen_eq := dataflow_loadingEmpty.mlen_eq
  nblk_eq := dataflow_loadingEmpty.nblk_eq
  pm_eq := dataflow_loadingEmpty.pm_eq
  ldblk := fun h => absurd h (by decide : opOf 0x200 ≠ Op.ldblk)
  sched := fun h => absurd h (by decide : opOf 0x200 ≠ Op.sched)
  initwv := fun h => absurd h (by decide : opOf 0x200 ≠ Op.initwv)
  round := fun h => absurd h (by decide : opOf 0x200 ≠ Op.round)
  addback := fun h => absurd h (by decide : opOf 0x200 ≠ Op.addback)
  digest := fun h => absurd h (by decide : opOf 0x200 ≠ Op.digest)
  halt := fun _ _ j h => by
    rw [Nat.zero_add]
    exact read_hashOf_empty j (by simpa [hashOf] using h)

/-- The clause at `done` = 1, in a run whose message was stable. -/
theorem witness_StepKeepsRunInv_done : haltedEmpty.uop = 0x200 ∧ haltedEmpty.hazard = false ∧
    Inv haltedEmpty ∧ RunInv haltedEmpty ∧ haltedEmpty.phase = some .done ∧
    Dataflow [] haltedEmpty ∧ ∃ t, step haltedEmpty = .next t ∧ t.phase = some .done :=
  ⟨rfl, rfl, inv_haltedEmpty,
    ⟨fun h => absurd h (by decide : (atUop 0x200).phase ≠ some .padding),
      fun _ => ⟨[], dataflow_haltedEmpty⟩⟩,
    (by decide : (atUop 0x200).phase = some .done), dataflow_haltedEmpty, haltedEmpty, rfl,
    (by decide : (atUop 0x200).phase = some .done)⟩

/-- The clause that keeps the message while the blocks are processed, and its end by reset. -/
theorem witness_StepKeepsRunInv_run : loadingEmpty.phase = some .perBlockProcessing ∧
    Dataflow [] loadingEmpty ∧
    field (·.phase) (step loadingEmpty) = some (some .perBlockProcessing) ∧
    field (·.phase) (step (withMoves loadingEmpty [.inputs (moment true 0 0 false)])) =
      some (some .init) :=
  ⟨by decide, dataflow_loadingEmpty, by decide, by decide⟩

theorem witness_StepKeepsRunInv :
    (Inv loadingEmpty ∧ RunInv loadingEmpty ∧ ∃ t, step loadingEmpty = .next t) ∧
    (Inv (padding abc) ∧ RunInv (padding abc) ∧ ∃ t, step (padding abc) = .next t) :=
  ⟨⟨inv_loadingEmpty, ⟨fun h => absurd h (by decide), fun _ => ⟨[], dataflow_loadingEmpty⟩⟩,
      next_of_field (by decide)⟩,
    ⟨inv_padding, ⟨fun _ => rfl, fun h => absurd h (by decide)⟩, next_of_field (by decide)⟩⟩

theorem witness_RunComputesHash :
    (withMoves { atUop 0 with msg := bytesAt abc } [command 0b01 (BitVec.ofNat Config.lenw abc.length)]).uop =
      0x000 ∧ 8 * abc.length ≤ 2 ^ 64 - 1 ∧ Holds (bytesAt abc) 0 abc := by
  unfold Holds
  decide

theorem witness_OverflowRunFails :
    (withMoves (atUop 0) [command 0b01 2305843009213693952]).uop = 0x000 ∧
    (withMoves (atUop 0) [command 0b01 2305843009213693952]).moves =
      [command 0b01 2305843009213693952] ∧
    8 * (2305843009213693952 : BitVec 64).toNat > 2 ^ 64 - 1 := ⟨rfl, rfl, by decide⟩

/-- A step that stays in Fault, and the two ways out. -/
theorem witness_FaultLeftByClearOrReset :
    field (·.uop) (step (withMoves (atUop 0x240) [command 0b01 3])) = some 0x240 ∧
    field (·.uop) (step (withMoves (atUop 0x240) [command 0b10 0])) = some 0x000 ∧
    field (·.uop) (step (withMoves (atUop 0x240) [.inputs (moment true 0 0 false)])) = some 0x000 := by
  decide

/-- A step that stays in Done, a message write, and the two ways out. -/
theorem witness_HaltLeftByClearOrReset :
    field (·.uop) (step (atUop 0x200)) = some 0x200 ∧
    field (·.uop) (step (withMoves (atUop 0x200) [.writeMessage 0 0])) = some 0x200 ∧
    field (·.uop) (step (withMoves (atUop 0x200) [command 0b11 3])) = some 0x000 ∧
    field (·.uop) (step (withMoves (atUop 0x200) [.inputs (moment true 0 0 false)])) = some 0x000 := by
  decide

/-- Two cores with the same message, one after reset and one whose registers hold other values. -/
theorem witness_NothingPersists :
    (atUop 0x000).msg = ({ atUop 0x200 with H := IV, mlen := 3 } : State).msg ∧
    (atUop 0x000).uop = 0x000 ∧ ({ atUop 0x000 with H := IV, W := K } : State).uop = 0x000 ∧
    8 * abc.length ≤ 2 ^ 64 - 1 ∧ Holds ({ atUop 0x000 with msg := bytesAt abc } : State).msg 0 abc ∧
    Holds ({ atUop 0x000 with msg := bytesAt abc, H := IV, W := K } : State).msg 0 abc := by
  unfold Holds
  decide

/-- Two messages of one length. -/
theorem witness_SequenceDependsOnLengthOnly :
    (padding abc).mlen = (padding [0x00, 0xff, 0x62]).mlen ∧
    (∃ t, step (padding abc) = .next t) ∧ ∃ t, step (padding [0x00, 0xff, 0x62]) = .next t :=
  ⟨by decide, next_of_field (by decide), next_of_field (by decide)⟩

/-- Two cores with the same outputs that differ in `UOP` (`LDBLK` and `ROUND 63`), `H` and `PM`. -/
theorem witness_HostSeesOnlyOutputs :
    (withMoves loadingEmpty [.readStatus]).uop ≠ (withMoves (atUop 0x17F) [.readStatus]).uop ∧
    (withMoves loadingEmpty [.readStatus]).phase = (withMoves (atUop 0x17F) [.readStatus]).phase ∧
    (withMoves loadingEmpty [.readStatus]).busy = (withMoves (atUop 0x17F) [.readStatus]).busy ∧
    (withMoves loadingEmpty [.readStatus]).done = (withMoves (atUop 0x17F) [.readStatus]).done ∧
    (withMoves loadingEmpty [.readStatus]).fault = (withMoves (atUop 0x17F) [.readStatus]).fault ∧
    (∃ t, step (withMoves loadingEmpty [.readStatus]) = .next t) ∧
    ∃ t, step (withMoves (atUop 0x17F) [.readStatus]) = .next t :=
  ⟨by decide, by decide, by decide, by decide, by decide, next_of_field (by decide),
    next_of_field (by decide)⟩

end Sys2Proof.Tests
end

section
/-! The derived status outputs (R35): what `PHASE`, `busy`, `done` and `fault` are for a value of
`UOP.op`. -/

namespace Sys2Proof.Machine

/-- The outputs depend on `UOP` through its `op` alone (R35); at a literal `op` the right sides
compute. -/
theorem State.status_of_op {s : State} {op : BitVec 4} (h : opOf s.uop = op) :
    s.phase.map phaseCode = (phaseOf op).map phaseCode ∧
      s.busy = (decide (1 ≤ op.toNat) && decide (op.toNat ≤ 7)) ∧
      s.done = decide (op = Op.halt) ∧ s.fault = decide (op = Op.fhalt) := by
  subst h
  exact ⟨rfl, rfl, rfl, rfl⟩

/-- The five `op` codes of `LDBLK` to `ADDBACK` share one phase. -/
theorem phaseOf_perBlockProcessing {op : BitVec 4} (hlo : 2 ≤ op.toNat) (hhi : op.toNat ≤ 6) :
    phaseOf op = some .perBlockProcessing := by
  have hop : op.toNat = 2 ∨ op.toNat = 3 ∨ op.toNat = 4 ∨ op.toNat = 5 ∨ op.toNat = 6 := by omega
  unfold phaseOf
  rcases hop with h | h | h | h | h <;> simp only [h]

/-- The rows of `LDBLK` to `ADDBACK` in R35's table. -/
theorem State.status_of_perBlockProcessing {s : State} (hlo : 2 ≤ (opOf s.uop).toNat)
    (hhi : (opOf s.uop).toNat ≤ 6) :
    s.phase.map phaseCode = some 2 ∧ s.busy = true ∧ s.done = false ∧ s.fault = false := by
  obtain ⟨hphase, hbusy, hdone, hfault⟩ := State.status_of_op (s := s) rfl
  have hhalt : opOf s.uop ≠ Op.halt := fun h => absurd (h ▸ hhi) (by decide)
  have hfhalt : opOf s.uop ≠ Op.fhalt := fun h => absurd (h ▸ hhi) (by decide)
  refine ⟨?_, ?_, ?_, ?_⟩
  · rw [hphase, phaseOf_perBlockProcessing hlo hhi]
    rfl
  · rw [hbusy, decide_eq_true (by omega), decide_eq_true (by omega)]
    rfl
  · rw [hdone, decide_eq_false hhalt]
  · rw [hfault, decide_eq_false hfhalt]

/-- Settles O41: each row with one `op` code is `State.status_of_op` at that code; the five codes of
the per-block phase are one row. -/
theorem statusOutputs : Obligations.StatusOutputs := fun _ =>
  ⟨State.status_of_op, State.status_of_op, State.status_of_perBlockProcessing,
    State.status_of_op, State.status_of_op, State.status_of_op⟩

end Sys2Proof.Machine
end

section
/-! The decoder on the fields `op` and `idx` (R82, R83), and the reserved values of `UOP` (R85): the
decoder accepts none of them, there are 904, and no step writes one. -/

namespace Sys2Proof

open Sys2Proof.Safety

/-! ### The decoder, a row of R83 each -/

theorem decodeMicro_of_sched {u : BitVec 10} (ho : opOf u = Op.sched) :
    decodeMicro u =
      if 16 ≤ (idxOf u).toNat then .ok (.sched (idxOf u)) else .error (.reserved u) := by
  unfold decodeMicro
  rw [if_pos ho]

theorem decodeMicro_of_round {u : BitVec 10} (ho : opOf u = Op.round) :
    decodeMicro u = .ok (.round (idxOf u)) := by
  unfold decodeMicro
  rw [if_neg (by rw [ho]; decide), if_pos ho]

/-- Off the rows of `SCHED` and `ROUND` a word with an index is reserved. -/
theorem decodeMicro_of_idx {u : BitVec 10} (hs : opOf u ≠ Op.sched) (hr : opOf u ≠ Op.round)
    (hi : idxOf u ≠ 0) : decodeMicro u = .error (.reserved u) := by
  unfold decodeMicro
  rw [if_neg hs, if_neg hr, if_neg hi]

/-- Off the rows of `SCHED` and `ROUND` a word whose `op` is no micro-operation is reserved. -/
theorem decodeMicro_of_plainMicro_none {u : BitVec 10} (hs : opOf u ≠ Op.sched)
    (hr : opOf u ≠ Op.round) (hp : plainMicro (opOf u) = none) :
    decodeMicro u = .error (.reserved u) := by
  unfold decodeMicro
  rw [if_neg hs, if_neg hr, hp, ite_self]

theorem plainMicro_eq_none {op : BitVec 4} (h : 10 ≤ op.toNat) : plainMicro op = none := by
  revert op
  decide

theorem opOf_ne_of_div {u : BitVec 10} {op : BitVec 4} (h : u.toNat / 64 ≠ op.toNat) : opOf u ≠ op := by
  rintro rfl
  exact h (opOf_toNat u).symm

theorem opOf_eq_of_div {u : BitVec 10} {op : BitVec 4} (h : u.toNat / 64 = op.toNat) : opOf u = op :=
  BitVec.eq_of_toNat_eq ((opOf_toNat u).trans h)

theorem idxOf_eq_ofNat (u : BitVec 10) : idxOf u = BitVec.ofNat 6 (u.toNat % 64) := by
  rw [← idxOf_toNat, BitVec.ofNat_toNat, BitVec.setWidth_eq]

/-! ### The reserved values -/

/-- R85, kind by kind: an `op` above 9, a `SCHED` index below 16, an index where none is taken. -/
theorem decodeMicro_of_reservedUop {u : BitVec 10} (h : ReservedUop u) :
    decodeMicro u = .error (.reserved u) := by
  rcases h with hop | ⟨hop, hidx⟩ | ⟨hop, hidx⟩
  · have hne : ∀ op : BitVec 4, op.toNat < 10 → opOf u ≠ op := fun op hlt =>
      opOf_ne_of_div (by omega)
    exact decodeMicro_of_plainMicro_none (hne _ (by decide)) (hne _ (by decide))
      (plainMicro_eq_none (by rwa [opOf_toNat]))
  · rw [decodeMicro_of_sched (opOf_eq_of_div hop), if_neg (by rw [idxOf_toNat]; omega)]
  · have hne : ∀ op : BitVec 4, op.toNat ∉ [0, 1, 2, 4, 6, 7, 8, 9] → opOf u ≠ op :=
      fun op hout => opOf_ne_of_div fun he => hout (he ▸ hop)
    have hi : idxOf u ≠ 0 := fun h0 => hidx (by rw [← idxOf_toNat, h0]; rfl)
    exact decodeMicro_of_idx (hne _ (by decide)) (hne _ (by decide)) hi

theorem isReserved_of_reservedUop {u : BitVec 10} (h : ReservedUop u) : isReserved u = true := by
  unfold isReserved
  rw [decodeMicro_of_reservedUop h]

/-- How many words with this `op` have the property `p`. -/
def countAtOp (p : BitVec 10 → Bool) (op : Nat) : Nat :=
  ((List.range 64).filter fun idx => p (BitVec.ofNat 10 (op * 64 + idx))).length

/-- A range whose length is a product, cut into rows: the 1024 words have 16 rows of 64 (R82). -/
theorem range_mul_eq_flatMap (n m : Nat) :
    List.range (n * m) = (List.range n).flatMap fun a => (List.range m).map (a * m + ·) := by
  induction n with
  | zero => simp
  | succ n ih => simp [Nat.succ_mul, List.range_add, List.range_succ, ih]

theorem count_words_eq_sum (p : BitVec 10 → Bool) :
    ((List.range 1024).filter fun n => p (BitVec.ofNat 10 n)).length =
      ((List.range 16).map (countAtOp p)).sum := by
  rw [show 1024 = 16 * 64 from rfl, range_mul_eq_flatMap]
  simp only [List.filter_flatMap, List.length_flatMap, List.filter_map, List.length_map]
  rfl

/-- The rows of R85: `op` 10 to 15 has no legal word, `SCHED` lacks its lowest 16, `ROUND` none, and
every other `op` has one legal word. -/
theorem countAtOp_reservedUop : ∀ op < 16, countAtOp (fun u => decide (ReservedUop u)) op =
    if 10 ≤ op then 64 else if op = 3 then 16 else if op = 5 then 0 else 63 := by
  decide

theorem count_reservedUop :
    ((List.range 1024).filter fun n => decide (ReservedUop (BitVec.ofNat 10 n))).length = 904 := by
  rw [count_words_eq_sum fun u => decide (ReservedUop u),
    List.map_congr_left fun op hop => countAtOp_reservedUop op (List.mem_range.1 hop)]
  rfl

/-! ### What is written into `UOP` -/

theorem isReserved_sched {t : BitVec 6} (h : 16 ≤ t.toNat) :
    isReserved (microWord Op.sched t) = false :=
  isReserved_eq_false.2 ⟨.sched t, by
    rw [decodeMicro_of_sched (opOf_microWord ..), idxOf_microWord, if_pos h]⟩

theorem isReserved_round (t : BitVec 6) : isReserved (microWord Op.round t) = false :=
  isReserved_eq_false.2 ⟨.round t, by
    rw [decodeMicro_of_round (opOf_microWord ..), idxOf_microWord]⟩

end Sys2Proof

namespace Sys2Proof.Machine

open Sys2Proof.Safety

theorem isReserved_reset : isReserved State.reset.uop = false := rfl

/-- The form in which each instruction's write of `UOP` is used below: for a literal word the premise
computes. -/
theorem isReserved_goto {s : State} {op : BitVec 4} {idx : BitVec 6}
    (h : isReserved (microWord op idx) = false) : isReserved (s.goto op idx).uop = false := h

/-- An instruction leaves `UOP` or writes a word into it that the decoder accepts. -/
theorem exec_keeps_unreserved {i : Instr} {s t : State} (h : exec i s = .next t)
    (hs : isReserved s.uop = false) : isReserved t.uop = false := by
  cases i with
  | wait => cases h; exact isReserved_goto rfl
  | pad => rcases execPad_next h with ⟨-, rfl⟩ | ⟨-, -, -, rfl⟩ <;> exact isReserved_goto rfl
  | ldblk => obtain ⟨-, -, -, rfl⟩ := execLdblk_next h; exact isReserved_goto rfl
  | sched k =>
    obtain ⟨hk, rfl⟩ := execSched_next h
    refine isReserved_goto ?_
    split
    · exact isReserved_sched (by bv_omega)
    · rfl
  | initwv => cases execInitwv_next h; exact isReserved_goto rfl
  | round k =>
    cases execRound_next h
    refine isReserved_goto ?_
    split
    · exact isReserved_round _
    · rfl
  | addback =>
    cases execAddback_next h
    refine isReserved_goto ?_
    split <;> rfl
  | digest => rcases execDigest_next h with ⟨-, rfl⟩ | ⟨-, rfl⟩ <;> exact isReserved_goto rfl
  | halt => cases h; exact isReserved_goto rfl
  | fhalt => cases h; exact isReserved_goto rfl
  | start len =>
    rcases execStart_next h with ⟨-, rfl⟩ | ⟨-, rfl⟩
    · exact isReserved_goto rfl
    · exact hs
  | clear => cases h; exact isReserved_reset

/-- No step leads to a reserved `UOP`: an instruction keeps it so, reset writes `(WAIT, 0)`, and no
other move of the host writes `UOP`. -/
theorem step_keeps_unreserved {s t : State} (h : step s = .next t) : isReserved t.uop = false := by
  have hs : isReserved s.uop = false := step_next_legal h
  obtain ⟨r, rfl, hr⟩ := step_next h
  rcases hr with ⟨i, -, hi⟩ | ⟨-, rfl⟩ | ⟨-, rfl⟩ | ⟨a, b, -, hw⟩ | ⟨-, hread⟩ | ⟨n, -, hread⟩
  · exact exec_keeps_unreserved hi hs
  · exact hs
  · exact isReserved_reset
  · rcases hostWriteMessage_next hw with ⟨-, ⟨-, rfl⟩ | ⟨-, rfl⟩⟩ <;> exact hs
  · obtain ⟨p, -, rfl⟩ := hostReadStatus_next hread
    exact hs
  · rcases hostReadDigest_next hread with ⟨b, -, rfl⟩ | ⟨-, rfl⟩ <;> exact hs

/-- A `UOP` that the decoder accepts is none of those that R85 lists. -/
theorem not_reservedUop {u : BitVec 10} (h : isReserved u = false) : ¬ ReservedUop u := fun hu =>
  absurd (isReserved_of_reservedUop hu) (by rw [h]; decide)

/-- Settles O10: the decoder rejects what R85 lists, so a step refuses it; and a step that answers
leaves a `UOP` that the decoder accepts. -/
theorem reservedUopIsRefused : Obligations.ReservedUopIsRefused :=
  ⟨count_reservedUop, fun _ => decodeMicro_of_reservedUop,
    fun _ h => step_reserved (isReserved_of_reservedUop h), not_reservedUop isReserved_reset,
    fun _ _ h => not_reservedUop (step_keeps_unreserved h)⟩

/-- Settles O2: `SCHED` and `ROUND` by their rows, the eight words without an index by evaluation, and
what is left over is what R85 lists. -/
theorem microWordDecoding : Obligations.MicroWordDecoding := by
  intro u
  split_ifs with hsched hround h h h h h h h h
  · obtain ⟨hop, hidx⟩ := hsched
    rw [decodeMicro_of_sched (opOf_eq_of_div hop), if_pos (by rwa [idxOf_toNat]), idxOf_eq_ofNat]
  · rw [decodeMicro_of_round (opOf_eq_of_div hround), idxOf_eq_ofNat]
  iterate 8
    · subst h
      rfl
  · refine decodeMicro_of_reservedUop ?_
    simp only [ReservedUop, List.mem_cons, List.not_mem_nil, or_false]
    bv_omega

/-- Settles O4: each command word is a literal, so the decoder's two tests compute, whatever the operand. -/
theorem commandWordDecoding : Obligations.CommandWordDecoding := fun _ =>
  ⟨rfl, rfl, rfl, rfl⟩

end Sys2Proof.Machine
end

section
/-! PROOFS. The word operations: rotation and shift as numbers and by bits (R104, R105), and from the
two bit rules the functions built on them (R108 to R113). -/

namespace Sys2Proof.Machine

/-! ### Rotation and shift -/

/-- R105: every bit moves down by the amount, and nothing enters from above. -/
theorem getLsbD_shr (x : Word) (n i : Nat) :
    (shr x n).getLsbD i = if i + n ≤ 31 then x.getLsbD (i + n) else false := by
  rw [shr, BitVec.getLsbD_ushiftRight, Nat.add_comm n i]
  split_ifs with h
  · rfl
  · exact BitVec.getLsbD_of_ge x _ (by omega)

theorem toNat_shr (x : Word) (n : Nat) : (shr x n).toNat = x.toNat / 2 ^ n := by
  rw [shr, BitVec.toNat_ushiftRight, Nat.shiftRight_eq_div_pow]

theorem rotr_zero (x : Word) : rotr x 0 = x := by
  rw [rotr, BitVec.rotateRight_def]
  simp

/-- The amount counts modulo 32 (R104). -/
theorem rotr_mod (x : Word) (n : Nat) : rotr x (n % 32) = rotr x n :=
  BitVec.rotateRight_mod_eq_rotateRight

theorem rotr_eq_shifts (x : Word) {n : Nat} (h : n < 32) :
    rotr x n = x >>> n ||| x <<< (32 - n) := by
  rw [rotr, BitVec.rotateRight_def, Nat.mod_eq_of_lt h]

/-- R104: bit `i` comes from `n` places above it, around the word. The library tells the bits that do
not pass the top from those that do; the index modulo 32 covers both. -/
theorem getLsbD_rotr (x : Word) (n : Nat) {i : Nat} (h : i < 32) :
    (rotr x n).getLsbD i = x.getLsbD ((i + n) % 32) := by
  rw [rotr, BitVec.getLsbD_rotateRight]
  by_cases hi : i < 32 - n % 32
  · have hsource : (i + n) % 32 = n % 32 + i := by omega
    simp [hi, hsource]
  · have hsource : (i + n) % 32 = i - (32 - n % 32) := by omega
    simp [hi, h, hsource]

/-- The `n` low bits of a word, moved to its top: those above them leave it. -/
theorem toNat_shiftLeft_sub (x : Word) {n : Nat} (h : n ≤ 32) :
    (x <<< (32 - n)).toNat = x.toNat % 2 ^ n * 2 ^ (32 - n) := by
  have hpow : 2 ^ 32 = 2 ^ n * 2 ^ (32 - n) := by rw [← Nat.pow_add, Nat.add_sub_cancel' h]
  rw [BitVec.toNat_shiftLeft, Nat.shiftLeft_eq, hpow, Nat.mul_mod_mul_right]

/-- R104 as a number: the two shifts share no bit, because the one that moves down stays below
`2 ^ (32 - n)` and the other is a multiple of it. So their OR is their sum. -/
theorem toNat_rotr (x : Word) {n : Nat} (h : n < 32) :
    (rotr x n).toNat = x.toNat / 2 ^ n + x.toNat % 2 ^ n * 2 ^ (32 - n) := by
  have hlow : x.toNat / 2 ^ n < 2 ^ (32 - n) := by
    rw [Nat.div_lt_iff_lt_mul (Nat.two_pow_pos n), ← Nat.pow_add, Nat.sub_add_cancel h.le]
    exact x.isLt
  calc (rotr x n).toNat
      = x.toNat / 2 ^ n ||| 2 ^ (32 - n) * (x.toNat % 2 ^ n) := by
        rw [rotr_eq_shifts x h, BitVec.toNat_or, toNat_shiftLeft_sub x h.le,
          BitVec.toNat_ushiftRight, Nat.shiftRight_eq_div_pow, Nat.mul_comm]
    _ = x.toNat / 2 ^ n + x.toNat % 2 ^ n * 2 ^ (32 - n) := by
        rw [Nat.or_comm, ← Nat.two_pow_add_eq_or_of_lt hlow, Nat.add_comm, Nat.mul_comm]

/-- Settles O13, by the rules for `rotr` by bits, as a number and with shifts. -/
theorem rotateRight : Obligations.RotateRight := fun x n =>
  ⟨fun _ hi => getLsbD_rotr x n hi,
    fun _ hn => ⟨toNat_rotr x (Nat.lt_succ_of_le hn), rotr_eq_shifts x (Nat.lt_succ_of_le hn)⟩,
    rotr_zero x, (rotr_mod x n).symm⟩

/-- Settles O14, by the rules for `shr` as a number and by bits. -/
theorem shiftRight : Obligations.ShiftRight := fun x n =>
  ⟨toNat_shr x n, fun i _ => getLsbD_shr x n i⟩

/-! ### The functions built on them -/

/-- Settles O15: XOR acts on each bit alone, and each term brings its bit by the rule of its rotation
or shift. -/
theorem mixingFunctionsByBits : Obligations.MixingFunctionsByBits := by
  intro x i hi
  refine ⟨?_, ?_, ?_, ?_⟩ <;>
    simp only [s0, s1, S0, S1, BitVec.getLsbD_xor, getLsbD_rotr x _ hi, getLsbD_shr]

/-- R112: of the two AND terms the one that the bit of `e` does not select is 0. -/
theorem getLsbD_ch (e f g : Word) {i : Nat} (h : i < 32) :
    (ch e f g).getLsbD i = if e.getLsbD i then f.getLsbD i else g.getLsbD i := by
  simp only [ch, BitVec.getLsbD_xor, BitVec.getLsbD_and, BitVec.getLsbD_not, h]
  cases e.getLsbD i <;> simp

/-- R113: where `a` is 0 only the product of `b` and `c` counts; where `a` is 1 one more vote is
enough, and the XOR of all three products is the OR of `b` and `c`. -/
theorem getLsbD_maj (a b c : Word) (i : Nat) :
    (maj a b c).getLsbD i =
      ((a.getLsbD i && b.getLsbD i) || (a.getLsbD i && c.getLsbD i) ||
        (b.getLsbD i && c.getLsbD i)) := by
  simp only [maj, BitVec.getLsbD_xor, BitVec.getLsbD_and]
  cases a.getLsbD i
  · simp
  · cases b.getLsbD i <;> simp

/-- Settles O16, by the rules for `ch` and `maj` on one bit. -/
theorem chooseAndMajority : Obligations.ChooseAndMajority := fun x y z i hi =>
  ⟨getLsbD_ch x y z hi, getLsbD_maj x y z i⟩

end Sys2Proof.Machine
end

section
/-! PROOFS. The padder (R120 to R124): the arithmetic of the padded length, the padded message byte by
byte, and the state `PAD` leaves behind. -/

namespace Sys2Proof.Machine

open Sys2Proof.Safety

/-! ### The lengths (R121) -/

theorem zeroFill_lt (L : Nat) : zeroFill L < 64 := by
  unfold zeroFill
  omega

theorem zeroFill_add_mod (L : Nat) : (zeroFill L + L) % 64 = 55 := by
  unfold zeroFill
  omega

/-- The zero fill brings the padded length to whole blocks. -/
theorem blockCount_mul (L : Nat) : blockCount L * 64 = paddedLength L := by
  have := zeroFill_add_mod L
  unfold blockCount paddedLength
  omega

/-- A length whose bit-length fits its field has a padded length that fits `PLEN`. -/
theorem paddedLength_lt {L : Nat} (h : 8 * L ≤ 2 ^ 64 - 1) : paddedLength L < 2 ^ 62 := by
  have := zeroFill_lt L
  unfold paddedLength
  omega

theorem overflows_eq_true_iff {L : Nat} : overflows L = true ↔ 8 * L > 2 ^ 64 - 1 := by
  simp [overflows, Config.overflowPolicy]

theorem overflows_eq_false {L : Nat} (h : 8 * L ≤ 2 ^ 64 - 1) : overflows L = false :=
  Bool.eq_false_iff.2 fun ho => absurd (overflows_eq_true_iff.1 ho) (Nat.not_lt.2 h)

/-! ### The padded message, byte by byte (R72, R122) -/

@[simp] theorem padBytes_length (M : List Byte) : (padBytes M).length = paddedLength M.length := by
  simp only [padBytes, paddedLength, List.length_append, List.length_replicate, List.length_singleton,
    bytesBe64_length]

/-- Byte `i` of the eight is the one with `7 - i` bytes below it. -/
theorem getElem?_bytesBe64 (n : BitVec 64) {i : Nat} (h : i < 8) :
    (bytesBe64 n)[i]? = some (BitVec.ofNat 8 (n.toNat / 2 ^ (8 * (7 - i)))) := by
  have hbyte : (bytesBe64 n)[i]? = some (n.extractLsb' (8 * (7 - i)) 8) := by
    interval_cases i <;> rfl
  rw [hbyte, BitVec.extractLsb', Nat.shiftRight_eq_div_pow]

theorem getElem?_padBytes_message {M : List Byte} {j : Nat} (h : j < M.length) :
    (padBytes M)[j]? = M[j]? := by
  simp only [padBytes, List.append_assoc]
  exact List.getElem?_append_left h

theorem getElem?_padBytes_marker (M : List Byte) : (padBytes M)[M.length]? = some 0x80 := by
  simp [padBytes]

/-- The length field is the last eight bytes. -/
theorem length_beforeLengthField (M : List Byte) :
    (M ++ [(0x80 : Byte)] ++ List.replicate (zeroFill M.length) 0x00).length =
      paddedLength M.length - 8 := by
  simp only [paddedLength, List.length_append, List.length_replicate, List.length_singleton,
    Nat.add_sub_cancel]

theorem getElem?_padBytes_zeros {M : List Byte} {j : Nat} (hlo : M.length < j)
    (hhi : j < paddedLength M.length - 8) : (padBytes M)[j]? = some 0x00 := by
  have hlen : (M ++ [(0x80 : Byte)]).length = M.length + 1 := List.length_append
  have hzero : j - (M.length + 1) < zeroFill M.length := by
    unfold paddedLength at hhi
    omega
  rw [padBytes, List.getElem?_append_left (by rwa [length_beforeLengthField]),
    List.getElem?_append_right (by omega), hlen, List.getElem?_replicate, if_pos hzero]

theorem getElem?_padBytes_lengthField {M : List Byte} (hfits : 8 * M.length ≤ 2 ^ 64 - 1) {j : Nat}
    (hlo : paddedLength M.length - 8 ≤ j) (hhi : j < paddedLength M.length) :
    (padBytes M)[j]? =
      some (BitVec.ofNat 8 (8 * M.length / 2 ^ (8 * (paddedLength M.length - 1 - j)))) := by
  have hlen := length_beforeLengthField M
  have hdepth : 7 - (j - (paddedLength M.length - 8)) = paddedLength M.length - 1 - j := by
    unfold paddedLength at *
    omega
  have hvalue : (BitVec.ofNat 64 (8 * M.length)).toNat = 8 * M.length := by
    rw [BitVec.toNat_ofNat]
    omega
  rw [padBytes, List.getElem?_append_right (by omega), hlen, getElem?_bytesBe64 _ (by omega), hdepth,
    hvalue]

/-! ### The state after a `PAD` that does not raise (R121) -/

/-- A byte sequence is read from where it stands. -/
theorem readBytes_length_eq_some {m : Memory} {a : Nat} {bs : List Byte} :
    Memory.readBytes m a bs.length = some bs ↔ Holds m a bs := by
  simp [Memory.readBytes_eq_some, Holds]

/-- A byte space that is written whole reads as the bytes written. -/
theorem read_writeBytes_nil (bs : List Byte) (j : Nat) :
    Memory.read (Memory.writeBytes [] 0 bs) j = bs[j]? := by
  rw [Memory.read_writeBytes]
  split_ifs with hj
  · rw [Nat.sub_zero]
  · rw [Memory.read_nil, List.getElem?_eq_none (by omega)]

/-- What `PAD` leaves when it has read the message `M`. -/
def State.afterPad (s : State) (M : List Byte) : State :=
  ({ s with
    pm := Memory.writeBytes [] 0 (padBytes M)
    plen := BitVec.ofNat 62 (paddedLength M.length)
    nblk := BitVec.ofNat Config.blkw (blockCount M.length) }).goto Op.ldblk 0

/-- `PM` is written whole: its bytes are those of the padded message, and beyond them it holds none
(R51). -/
theorem read_afterPad_pm (s : State) (M : List Byte) (j : Nat) :
    Memory.read (s.afterPad M).pm j = (padBytes M)[j]? :=
  read_writeBytes_nil (padBytes M) j

theorem afterPad_plen_toNat (s : State) {M : List Byte} (hfits : 8 * M.length ≤ 2 ^ 64 - 1) :
    (s.afterPad M).plen.toNat = paddedLength M.length :=
  Nat.mod_eq_of_lt (paddedLength_lt hfits)

theorem afterPad_nblk_toNat (s : State) {M : List Byte} (hfits : 8 * M.length ≤ 2 ^ 64 - 1) :
    (s.afterPad M).nblk.toNat = blockCount M.length := by
  have := blockCount_mul M.length
  have := paddedLength_lt hfits
  exact Nat.mod_eq_of_lt (by unfold Config.blkw; omega)

/-- R124: a bit-length that does not fit raises, and `PAD` then writes `ERR` and `UOP` only. -/
theorem execPad_of_overflow {s : State} (h : 8 * s.mlen.toNat > 2 ^ 64 - 1) :
    execPad s = .next { s with err := .lengthOverflow, uop := 0x240 } := by
  have hraise : overflows s.messageLength = true := overflows_eq_true_iff.2 h
  rw [execPad, if_pos hraise]
  rfl

theorem execPad_of_holds {s : State} {M : List Byte} (hfits : 8 * M.length ≤ 2 ^ 64 - 1)
    (hlen : s.mlen.toNat = M.length) (hmsg : Holds s.msg 0 M) :
    execPad s = .next (s.afterPad M) := by
  unfold execPad State.messageLength
  simp only [hlen, overflows_eq_false hfits, readBytes_length_eq_some.2 hmsg]
  rfl

/-- A `PAD` that does not raise and does not stop has found the message in `MSG`. -/
theorem execPad_next_of_fits {s t : State} (hfits : 8 * s.mlen.toNat ≤ 2 ^ 64 - 1)
    (h : execPad s = .next t) :
    ∃ M, s.mlen.toNat = M.length ∧ Holds s.msg 0 M ∧ t = s.afterPad M := by
  rcases execPad_next h with ⟨hraise, -⟩ | ⟨-, M, hread, rfl⟩
  · exact absurd (overflows_eq_true_iff.1 hraise) (Nat.not_lt.2 hfits)
  · have hlen : s.messageLength = M.length := (Memory.readBytes_eq_some.1 hread).1.symm
    refine ⟨M, hlen, readBytes_length_eq_some.1 (hlen ▸ hread), ?_⟩
    rw [State.afterPad, hlen]

/-- Settles O18: with `k` = `zeroFill` and `P` = `paddedLength`, the state is `State.afterPad`. -/
theorem padWritesPaddedMessage : Obligations.PadWritesPaddedMessage := by
  refine ⟨rfl, fun s => execPad_of_overflow, fun s M hfits hlen hmsg => ?_⟩
  refine ⟨s.afterPad M, zeroFill M.length, paddedLength M.length, zeroFill_lt _, zeroFill_add_mod _,
    rfl, execPad_of_holds hfits hlen hmsg, ?_, ?_, afterPad_plen_toNat s hfits, ?_, rfl⟩
  · intro j _
    rw [Nat.zero_add]
    exact read_afterPad_pm s M j
  · intro a ha
    rw [read_afterPad_pm]
    exact List.getElem?_eq_none (by rwa [padBytes_length])
  · rw [afterPad_nblk_toNat s hfits, blockCount_mul]

/-- Settles O19: `PM` reads as the padded message, whose four parts have a rule each. -/
theorem padClosedForm : Obligations.PadClosedForm := by
  intro s t hfits hexec j hj
  obtain ⟨M, hlen, hmsg, rfl⟩ := execPad_next_of_fits hfits hexec
  rw [hlen] at hfits
  rw [afterPad_plen_toNat s hfits] at hj
  rw [afterPad_plen_toNat s hfits, hlen, read_afterPad_pm]
  refine ⟨fun hmessage => ?_, fun hmarker => ?_, getElem?_padBytes_zeros,
    fun hfield => getElem?_padBytes_lengthField hfits hfield hj⟩
  · rw [getElem?_padBytes_message hmessage, ← hmsg j hmessage, Nat.zero_add]
  · rw [hmarker, getElem?_padBytes_marker]

end Sys2Proof.Machine
end

section
/-! PROOFS. The block parser (R135 to R140): words read from bytes, the range check of `LDBLK`, and the
state it leaves behind. -/

namespace Sys2Proof.Machine

/-- Where every byte holds a value, so does every word: big-endian, four bytes each (R56, R70). -/
theorem readWords_of_read {m : Memory} {a n : Nat} {B : Nat → Byte}
    (h : ∀ k, k < 4 * n → Memory.read m (a + k) = some (B k)) :
    Memory.readWords m a n = some (List.ofFn fun j : Fin n =>
      be32 (B (4 * j.val)) (B (4 * j.val + 1)) (B (4 * j.val + 2)) (B (4 * j.val + 3))) := by
  have hread : Memory.readBytes m a (4 * n) = some ((List.range (4 * n)).map B) := by
    refine Memory.readBytes_eq_some.2 ⟨by simp, fun k hk => ?_⟩
    rw [h k hk, List.getElem?_map, List.getElem?_range hk, Option.map_some]
  simp only [Memory.readWords, hread]
  rw [wordsOfBytes_eq n _ (by simp)]
  simp only [List.getElem_map, List.getElem_range]

/-- The relation of R32 makes the second half of the range check follow from the first. -/
theorem blockInRange_iff {s : State} (hplen : s.plen.toNat = 64 * s.nblk.toNat) :
    s.blockInRange = true ↔ s.blk.toNat < s.nblk.toNat := by
  simp only [State.blockInRange, Bool.and_eq_true, decide_eq_true_eq]
  unfold State.blockAddress
  omega

/-- R136, once the block is read. -/
theorem execLdblk_of_readWords {s : State} {block : List Word} (hrange : s.blockInRange = true)
    (hread : Memory.readWords s.pm s.blockAddress 16 = some block) :
    execLdblk s = .next (({ s with W := setLowWords s.W block }).goto Op.sched 16) := by
  rw [execLdblk, if_pos hrange, hread]

theorem setLowWords_getElem_of_lt (w : Vector Word 64) {ws : List Word} {j : Nat} (h : j < 64)
    (hj : j < ws.length) : (setLowWords w ws)[j] = ws[j] := by
  rw [setLowWords_getElem w ws j h, List.getD_eq_getElem _ _ hj]

theorem setLowWords_getElem_of_le (w : Vector Word 64) {ws : List Word} {j : Nat} (h : j < 64)
    (hj : ws.length ≤ j) : (setLowWords w ws)[j] = w[j] := by
  rw [setLowWords_getElem w ws j h, List.getD_eq_default _ _ hj]

/-- Settles O25: the block is read as sixteen big-endian words, which replace `W[0..15]`. -/
theorem ldblkLoadsBlock : Obligations.LdblkLoadsBlock := by
  refine ⟨rfl, fun s B hblk hplen hbytes => ?_⟩
  have hread := readWords_of_read (n := 16) hbytes
  refine ⟨_, execLdblk_of_readWords ((blockInRange_iff hplen).2 hblk) hread,
    fun j h hj => ?_, fun j h hj => ?_, rfl⟩
  · rw [State.goto_W, setLowWords_getElem_of_lt _ h (by simpa using hj), List.getElem_ofFn,
      be32_toNat]
  · rw [State.goto_W, setLowWords_getElem_of_le _ h (by simpa using hj)]

end Sys2Proof.Machine
end

section
/-! PROOFS. The message scheduler (R145 to R151): the word and the successor of `SCHED t`, the run of the
48 `SCHED`, and that the schedule depends on the sixteen block words alone. -/

namespace Sys2Proof.Machine

/-- With no host move pending a step is the micro-operation in `UOP` (R182). -/
theorem step_of_decodeMicro {s : State} {i : Instr} (hdec : decodeMicro s.uop = .ok i)
    (hmoves : s.moves = []) : step s = exec i s := by
  have hmove : s.nextMove = (.perform i, s.moves) := by
    simp only [State.nextMove, hmoves, hdec, actionOf]
  rw [step_of_legal (isReserved_eq_false.2 ⟨i, hdec⟩), hmove]
  rfl

/-! ### The micro-operation `SCHED t` (R146) -/

/-- `SCHED t` is the word 0x0C0 + `t`. -/
theorem microWord_sched {t : Nat} (h : t < 64) :
    microWord Op.sched (BitVec.ofNat 6 t) = BitVec.ofNat 10 (0x0C0 + t) := by
  apply BitVec.eq_of_toNat_eq
  rw [microWord_toNat, BitVec.toNat_ofNat, BitVec.toNat_ofNat, show Op.sched.toNat = 3 from rfl]
  omega

theorem decodeMicro_sched {t : Nat} (h : t < 64) (h16 : 16 ≤ t) :
    decodeMicro (BitVec.ofNat 10 (0x0C0 + t)) = .ok (.sched (BitVec.ofNat 6 t)) := by
  rw [← microWord_sched h, decodeMicro_of_sched (opOf_microWord ..), idxOf_microWord,
    if_pos (by rw [BitVec.toNat_ofNat]; omega)]

/-- The words of `SCHED 16` to `SCHED 63` and `INITWV` are consecutive, so the next word is the successor
in both branches of R146. -/
theorem execSched_of_le {t : Nat} (h : t < 64) (h16 : 16 ≤ t) (s : State) :
    execSched (BitVec.ofNat 6 t) s =
      .next { s with
        W := s.W.set t (scheduleWord s.W t h)
        uop := BitVec.ofNat 10 (0x0C0 + (t + 1)) } := by
  have ht : (BitVec.ofNat 6 t).toNat = t := Nat.mod_eq_of_lt h
  simp only [execSched, indexOperand, ht, if_pos h16, State.goto]
  split
  · next hlt =>
    rw [← microWord_sched (by omega : t + 1 < 64), BitVec.ofNat_add]
    rfl
  · next hge =>
    obtain rfl : t = 63 := by omega
    rfl

/-- Settles O27: both branches of the statement's `UOP` are the successor word. -/
theorem schedComputesWord : Obligations.SchedComputesWord := by
  intro t h h16
  refine ⟨by rw [encode, microWord_sched h], fun s => ?_⟩
  have huop : (if t < 63 then BitVec.ofNat 10 (0x0C0 + t + 1) else 0x100) =
      BitVec.ofNat 10 (0x0C0 + (t + 1)) := by
    split
    · rfl
    · next hge =>
      obtain rfl : t = 63 := by omega
      rfl
  rw [huop]
  exact execSched_of_le h h16 s

/-! ### The run of `SCHED 16` to `SCHED 63` (R149) -/

/-- `s` with `n` of the 48 `SCHED` done: `W` is extended by `n` words and `UOP` has moved on by `n`. -/
def State.afterSched (s : State) (n : Nat) : State :=
  { s with W := expandWords s.W n, uop := BitVec.ofNat 10 (0x0C0 + (16 + n)) }

theorem step_afterSched {s : State} (hmoves : s.moves = []) {n : Nat} (hn : n < 48) :
    step (s.afterSched n) = .next (s.afterSched (n + 1)) := by
  have ht : 16 + n < 64 := by omega
  have hdec : decodeMicro (s.afterSched n).uop = .ok (.sched (BitVec.ofNat 6 (16 + n))) :=
    decodeMicro_sched ht (by omega)
  rw [step_of_decodeMicro hdec hmoves, exec, execSched_of_le ht (by omega)]
  simp only [State.afterSched, expandWords, dif_pos ht, Nat.add_assoc]

theorem run_afterSched {s : State} (hmoves : s.moves = []) {n : Nat} (hn : n ≤ 48) :
    Host.Core.run Sys2Proof.core n (s.afterSched 0) = .next (s.afterSched n) := by
  induction n with
  | zero => exact run_zero _
  | succ n ih =>
    rw [run_add n 1 (ih (by omega)), run_succ 0 (step_afterSched hmoves (by omega))]
    exact run_zero _

/-! ### What the schedule depends on (R150) -/

/-- The four taps of word `t` lie below `t`. -/
theorem scheduleWord_congr {v w : Vector Word 64} {t : Nat} (ht : t < 64) (h16 : 16 ≤ t)
    (heq : ∀ j (hj : j < t), v[j] = w[j]) : scheduleWord v t ht = scheduleWord w t ht := by
  simp only [scheduleWord, heq _ (by omega : t - 16 < t), heq _ (by omega : t - 15 < t),
    heq _ (by omega : t - 7 < t), heq _ (by omega : t - 2 < t)]

/-- The words the scheduler has reached depend on the first sixteen alone. -/
theorem expandWords_congr {v w : Vector Word 64} (heq : ∀ j (hj : j < 16), v[j] = w[j]) {n : Nat}
    (hn : n ≤ 48) : ∀ j (hj : j < 16 + n), (expandWords v n)[j] = (expandWords w n)[j] := by
  induction n with
  | zero => exact heq
  | succ n ih =>
    intro j hj
    have ih := ih (by omega)
    have ht : 16 + n < 64 := by omega
    simp only [expandWords, dif_pos ht, Vector.getElem_set]
    split
    · exact scheduleWord_congr ht (by omega) ih
    · exact ih j (by omega)

/-- A read of `n` words answers `n` words. -/
theorem readWords_length {m : Memory} {a n : Nat} {ws : List Word}
    (h : Memory.readWords m a n = some ws) : ws.length = n := by
  unfold Memory.readWords at h
  split at h
  · cases h
  · next bs hbs =>
    have hlen : bs.length = 4 * n := (Memory.readBytes_eq_some.1 hbs).1
    rw [wordsOfBytes_eq n bs hlen.ge] at h
    cases h
    exact List.length_ofFn

/-- Sixteen block words fix the schedule, whatever `W` held before. -/
theorem expandWords_setLowWords (w : Vector Word 64) {block : List Word} (hlen : block.length = 16) :
    expandWords (setLowWords w block) 48 = schedule block := by
  refine Vector.ext fun j hj => expandWords_congr (fun k hk => ?_) le_rfl j hj
  rw [setLowWords_getElem_of_lt _ _ (by omega), setLowWords_getElem_of_lt _ _ (by omega)]

/-! ### `LDBLK` and the 48 `SCHED` together (R149, R150) -/

/-- `LDBLK` leaves the state from which the 48 `SCHED` start (R136). -/
theorem step_ldblk {s : State} {block : List Word} (huop : s.uop = 0x080) (hmoves : s.moves = [])
    (hrange : s.blockInRange = true)
    (hread : Memory.readWords s.pm s.blockAddress 16 = some block) :
    step s = .next (State.afterSched { s with W := setLowWords s.W block } 0) := by
  rw [step_of_decodeMicro (i := .ldblk) (by rw [huop]; rfl) hmoves]
  exact execLdblk_of_readWords hrange hread

/-- Settles O29: one step loads the block, and the 48 that follow expand it. -/
theorem expandLeavesSchedule : Obligations.ExpandLeavesSchedule := by
  intro s block hmoves huop hblk hplen hread
  have hload := step_ldblk huop hmoves ((blockInRange_iff hplen).2 hblk) hread
  have hsched := run_afterSched (s := { s with W := setLowWords s.W block }) hmoves (le_refl 48)
  rw [run_succ 48 hload, hsched, State.afterSched, expandWords_setLowWords _ (readWords_length hread)]
  rfl

end Sys2Proof.Machine
end

section
/-! PROOFS. The compressor (R155 to R161): what `INITWV`, `ROUND t` and `ADDBACK` answer in every state,
with the word that `UOP` holds next. -/

namespace Sys2Proof.Machine

/-! ### `INITWV` (R156) -/

theorem execInitwv_eq (s : State) :
    execInitwv s = .next { s with wv := WorkingState.ofVector s.H, uop := 0x140 } := rfl

/-- Settles O30: the eight words of `H` in the order of R22. -/
theorem initwvCopiesHashState : Obligations.InitwvCopiesHashState :=
  ⟨rfl, execInitwv_eq⟩

/-! ### `ROUND t` (R157) -/

/-- `ROUND t` is the word 0x140 + `t`. -/
theorem microWord_round {t : Nat} (h : t < 64) :
    microWord Op.round (BitVec.ofNat 6 t) = BitVec.ofNat 10 (0x140 + t) := by
  rw [microWord, BitVec.toNat_ofNat, Nat.mod_eq_of_lt h, show Op.round.toNat * 64 = 0x140 from rfl]

/-- The words of `ROUND 0` to `ROUND 63` and `ADDBACK` are consecutive, so the next word is the successor
in both branches of R157. -/
theorem execRound_of_lt {t : Nat} (h : t < 64) (s : State) :
    execRound (BitVec.ofNat 6 t) s =
      .next { s with
        wv := compressRound s.wv K[t] s.W[t]
        uop := BitVec.ofNat 10 (0x140 + (t + 1)) } := by
  have ht : (BitVec.ofNat 6 t).toNat = t := Nat.mod_eq_of_lt h
  simp only [execRound, indexOperand, ht, State.goto]
  split
  · next hlt =>
    rw [← microWord_round (by omega : t + 1 < 64), BitVec.ofNat_add]
    rfl
  · next hge =>
    obtain rfl : t = 63 := by omega
    rfl

/-- Settles O31: the temporaries are those of `compressRound`, and both branches of the statement's `UOP`
are the successor word. -/
theorem roundUpdatesWorkingVariables : Obligations.RoundUpdatesWorkingVariables := by
  intro t h
  refine ⟨by rw [encode, microWord_round h], ?_⟩
  rintro s T1 T2 rfl rfl
  have huop : (if t < 63 then BitVec.ofNat 10 (0x140 + t + 1) else 0x180) =
      BitVec.ofNat 10 (0x140 + (t + 1)) := ite_eq_left_iff.2 fun hge => by
    obtain rfl : t = 63 := by omega
    rfl
  rw [huop]
  exact execRound_of_lt h s

/-! ### `ADDBACK` (R158) -/

/-- The new `BLK` narrowed to its 56 bits is the sum in 56 bits, so this holds in every state; the branch
compares the sum before it is narrowed. -/
theorem execAddback_eq (s : State) :
    execAddback s =
      .next { s with
        H := addBack s.H s.wv
        blk := s.blk + 1
        uop := if s.blk.toNat + 1 < s.nblk.toNat then 0x080 else 0x1C0 } := by
  have hblk : BitVec.ofNat Config.blkw (s.blk.toNat + 1) = s.blk + 1 := by
    rw [BitVec.ofNat_add, BitVec.ofNat_toNat, BitVec.setWidth_eq]
    rfl
  simp only [execAddback, hblk, State.goto]
  split
  · rfl
  · rfl

/-- Settles O32: the model answers so in every state, also where the new `BLK` does not fit. -/
theorem addbackAddsAndBranches : Obligations.AddbackAddsAndBranches :=
  ⟨rfl, fun s _ => execAddback_eq s⟩

end Sys2Proof.Machine
end

section
/-! PROOFS. The Digest Assembler (R170 to R174): the bytes of the digest, and what `DIGEST` answers in a
run whose message was stable. -/

namespace Sys2Proof.Machine

/-- Byte `m` of a word is the one with `3 - m` bytes below it (R9). -/
theorem getElem?_bytesBe32 (x : Word) {m : Nat} (h : m < 4) :
    (bytesBe32 x)[m]? = some (BitVec.ofNat 8 (x.toNat / 2 ^ (24 - 8 * m))) := by
  have hbyte : (bytesBe32 x)[m]? = some (x.extractLsb' (24 - 8 * m) 8) := by
    interval_cases m <;> rfl
  rw [hbyte, BitVec.extractLsb', Nat.shiftRight_eq_div_pow]

/-- The digest holds the words of `H` in order, four bytes each (R174). -/
theorem getElem?_digestBytes (H : Vector Word 8) {i m : Nat} (hi : i < 8) (hm : m < 4) :
    (digestBytes H)[4 * i + m]? = (bytesBe32 H[i])[m]? := by
  have hword : ((digestBytes H).drop (4 * i)).take 4 = bytesBe32 H[i] := by
    interval_cases i <;> rfl
  rw [← hword, List.getElem?_take_of_lt hm, List.getElem?_drop]

theorem read_writeBytes_digestBytes (dg : Memory) (H : Vector Word 8) {i m : Nat} (hi : i < 8)
    (hm : m < 4) :
    Memory.read (Memory.writeBytes dg 0 (digestBytes H)) (4 * i + m) =
      some (BitVec.ofNat 8 (H[i].toNat / 2 ^ (24 - 8 * m))) := by
  have hrange : 0 ≤ 4 * i + m ∧ 4 * i + m < 0 + (digestBytes H).length := by
    rw [digestBytes_length]
    omega
  rw [Memory.read_writeBytes, if_pos hrange, Nat.sub_zero, getElem?_digestBytes H hi hm,
    getElem?_bytesBe32 _ hm]

/-- The 32 addresses of the digest are the whole of what is written into `DG` (R52). -/
theorem read_writeBytes_of_length_32 (dg : Memory) {bs : List Byte} (hlen : bs.length = 32) {a : Nat}
    (ha : 32 ≤ a) : Memory.read (Memory.writeBytes dg 0 bs) a = Memory.read dg a := by
  rw [Memory.read_writeBytes, if_neg (by omega)]

/-- `DIGEST` where no message write marked the run (R171). -/
theorem execDigest_of_stable {s : State} (h : s.hazard = false) :
    execDigest s =
      .next { s with dg := Memory.writeBytes s.dg 0 (digestBytes s.H), uop := 0x200 } := by
  rw [execDigest, if_neg (by rw [h]; decide), State.goto,
    show microWord Op.halt 0 = 0x200 from rfl]

/-- Settles O34: the byte of `DG` at `4 * i + m` is byte `m` of word `i` of the digest, and the write ends
at its 32nd byte. -/
theorem digestWritesHashState : Obligations.DigestWritesHashState := by
  refine ⟨rfl, fun s hstable => ⟨_, execDigest_of_stable hstable, ?_, ?_, ?_⟩⟩
  · intro i hi m hm
    rw [read_writeBytes_digestBytes s.dg s.H hi hm]
  · intro a ha
    rw [read_writeBytes_of_length_32 s.dg (digestBytes_length s.H) ha]
  · -- At the default transparency `rfl` would carry out the 32 writes into `DG`.
    with_reducible rfl

end Sys2Proof.Machine
end

section
/-! PROOFS. The sequencer at rest and the host beside it: the idle micro-operations (R184 to R186), `START`
(R195) and the status read (R197), which every legal `UOP` has a phase for. -/

namespace Sys2Proof.Machine

open Sys2Proof.Safety

/-! ### The idle micro-operations (R184 to R186) -/

theorem execWait_eq (s : State) : execWait s = .next { s with uop := 0x000 } := rfl

theorem execHalt_eq (s : State) : execHalt s = .next { s with uop := 0x200 } := rfl

theorem execFhalt_eq (s : State) : execFhalt s = .next { s with uop := 0x240 } := rfl

theorem State.done_of_halt {s : State} (h : s.uop = 0x200) : s.done = true := by
  obtain ⟨-, -, hdone, -⟩ := State.status_of_op (s := s) (op := Op.halt) (by rw [h]; rfl)
  exact hdone

theorem State.fault_and_not_done_of_fhalt {s : State} (h : s.uop = 0x240) :
    s.fault = true ∧ s.done = false := by
  obtain ⟨-, -, hdone, hfault⟩ := State.status_of_op (s := s) (op := Op.fhalt) (by rw [h]; rfl)
  exact ⟨hfault, hdone⟩

/-- Settles O36: each of the three writes its own word into `UOP`, and the outputs follow from the `op` of
that word. -/
theorem idleMicroOperations : Obligations.IdleMicroOperations :=
  ⟨rfl, rfl, rfl, fun s => ⟨execWait_eq s, execHalt_eq s, execFhalt_eq s, State.done_of_halt rfl,
    State.fault_and_not_done_of_fhalt rfl⟩⟩

/-! ### `START` (R195) -/

/-- `START` accepted; the mark of a written message is cleared (log 5). -/
theorem execStart_of_wait {s : State} (h : s.uop = 0x000) (len : BitVec Config.lenw) :
    execStart len s = .next { s with
      mlen := len, H := IV, blk := 0, err := .noError, uop := 0x040, hazard := false } :=
  if_pos h

/-- `START` ignored. -/
theorem execStart_of_ne_wait {s : State} (h : s.uop ≠ 0x000) (len : BitVec Config.lenw) :
    execStart len s = .next s :=
  if_neg h

/-- Settles O37, by the two branches of `START`. -/
theorem startBeginsOrIsIgnored : Obligations.StartBeginsOrIsIgnored := fun _ len =>
  ⟨rfl, fun h => ⟨_, execStart_of_wait h len, rfl⟩, fun h => execStart_of_ne_wait h len⟩

/-! ### The legal values of `UOP` (R84): accepted by the decoder, each in a phase -/

/-- R84, value by value: the two ranges by the rows of `SCHED` and `ROUND`, the eight words by
evaluation. -/
theorem isReserved_of_legalUop {u : BitVec 10} (h : LegalUop u) : isReserved u = false := by
  rcases h with rfl | rfl | rfl | ⟨hlo, hhi⟩ | rfl | ⟨hlo, hhi⟩ | rfl | rfl | rfl | rfl
  case inr.inr.inr.inl =>
    have hop : opOf u = Op.sched := opOf_eq_of_div (by bv_omega)
    rw [eq_microWord hop rfl]
    exact isReserved_sched (by rw [idxOf_toNat]; omega)
  case inr.inr.inr.inr.inr.inl =>
    have hop : opOf u = Op.round := opOf_eq_of_div (by bv_omega)
    rw [eq_microWord hop rfl]
    exact isReserved_round _
  all_goals rfl

theorem phaseOf_isSome {op : BitVec 4} (h : op.toNat < 10) : (phaseOf op).isSome := by
  revert op
  decide

/-- The legal values are those of the ten `op` codes that R35 has a row for. -/
theorem State.exists_phase_of_legalUop {s : State} (h : LegalUop s.uop) : ∃ p, s.phase = some p := by
  refine Option.isSome_iff_exists.1 (phaseOf_isSome ?_)
  rw [opOf_toNat]
  unfold LegalUop at h
  bv_omega

/-! ### The status read (R197) -/

theorem hostReadStatus_of_phase {s : State} {p : Phase} (h : s.phase = some p) :
    hostReadStatus s = .next { s with
      seen := some (.status (phaseCode p) s.busy s.done s.fault (errorCode s.err)) } := by
  simp only [hostReadStatus, h]

/-- Settles O42: a legal `UOP` is not refused and has a phase; taking the read off the host's moves leaves
the outputs as they are. -/
theorem statusRead : Obligations.StatusRead := by
  intro s rest hmoves hlegal
  obtain ⟨p, hp⟩ := State.exists_phase_of_legalUop hlegal
  refine ⟨p, hp, ?_⟩
  rw [step_readStatus (isReserved_of_legalUop hlegal) hmoves,
    hostReadStatus_of_phase (s := { s with moves := rest }) hp]
  rfl

end Sys2Proof.Machine
end

section
/-! PROOFS. The one exception, LengthOverflow (R210 to R213): what raising it writes, and the status
outputs after it. -/

namespace Sys2Proof.Machine

/-- The row of `FHALT` in R35's table, with `PHASE` as a phase instead of its code. -/
theorem State.status_of_fhalt {s : State} (h : s.uop = 0x240) :
    s.phase = some .fault ∧ s.fault = true ∧ s.busy = false ∧ s.done = false := by
  have hop : opOf s.uop = Op.fhalt := by
    rw [h]
    rfl
  have hphase : s.phase = some .fault := by
    rw [State.phase, hop]
    rfl
  obtain ⟨-, hbusy, -, -⟩ := State.status_of_op hop
  obtain ⟨hfault, hdone⟩ := State.fault_and_not_done_of_fhalt h
  exact ⟨hphase, hfault, hbusy, hdone⟩

/-- Settles O22: the raise writes `ERR` and `UOP` only, and the outputs are those of the `UOP` it
leaves. -/
theorem overflowEntry : Obligations.OverflowEntry := by
  intro s hoverflow
  obtain ⟨hphase, hfault, hbusy, hdone⟩ :=
    State.status_of_fhalt (s := { s with err := .lengthOverflow, uop := 0x240 }) rfl
  exact ⟨_, execPad_of_overflow hoverflow, rfl, hphase, hfault, hbusy, hdone, rfl⟩

end Sys2Proof.Machine
end

section
/-! PROOFS. The encoder and the decoder as inverses (R82, R83, R86), and the legal values of `UOP` (R84)
as those the decoder accepts. -/

namespace Sys2Proof

open Sys2Proof.Machine Sys2Proof.Safety

theorem decodeMicro_microWord_sched {t : BitVec 6} (h : 16 ≤ t.toNat) :
    decodeMicro (microWord Op.sched t) = .ok (.sched t) := by
  rw [decodeMicro_of_sched (opOf_microWord ..), idxOf_microWord, if_pos h]

theorem decodeMicro_microWord_round (t : BitVec 6) :
    decodeMicro (microWord Op.round t) = .ok (.round t) := by
  rw [decodeMicro_of_round (opOf_microWord ..), idxOf_microWord]

/-- Settles O5: the rows with an index by the rules of `SCHED` and `ROUND`; every other word, and the two
command words whatever the operand, by evaluation. -/
theorem decodeOfEncode : Obligations.DecodeOfEncode := by
  intro i hwf
  cases i with
  | sched t => exact decodeMicro_microWord_sched (by simpa [Instr.wf] using hwf)
  | round t => exact decodeMicro_microWord_round t
  | wait | pad | ldblk | initwv | addback | digest | halt | fhalt | start len | clear => rfl

/-- Settles O6: a micro-operation word by `decodeMicro_ok`, a command word by its three answers. -/
theorem encodeOfDecode : Obligations.EncodeOfDecode := by
  intro c i hdec
  cases c with
  | micro u =>
    obtain ⟨henc, hwf⟩ := decodeMicro_ok hdec
    exact ⟨hwf, .inl henc.symm⟩
  | command cmd len =>
    rw [decode] at hdec
    rcases decodeCommand_cases cmd len with ⟨hclear, he⟩ | ⟨rfl, he⟩ | ⟨-, he⟩ <;> rw [he] at hdec
    · cases hdec
      exact ⟨rfl, .inr ⟨rfl, cmd, len, rfl, hclear⟩⟩
    · cases hdec
      exact ⟨rfl, .inl rfl⟩
    · cases hdec

/-- A well-formed instruction that is written as a micro-operation word is written as a legal `UOP`, by
the family `Laws.Written`. -/
theorem legalUop_of_encode {i : Instr} {u : BitVec 10} (hwf : i.wf = true) (henc : encode i = .micro u) :
    LegalUop u := by
  have hwritten : Laws.Written.Statement i := by
    cases i with
    | wait => exact Laws.Written.wait
    | pad => exact Laws.Written.pad
    | ldblk => exact Laws.Written.ldblk
    | sched t => exact Laws.Written.sched t
    | initwv => exact Laws.Written.initwv
    | round t => exact Laws.Written.round t
    | addback => exact Laws.Written.addback
    | digest => exact Laws.Written.digest
    | halt => exact Laws.Written.halt
    | fhalt => exact Laws.Written.fhalt
    | start len => exact Laws.Written.start len
    | clear => exact Laws.Written.clear
  have hlegal := hwritten hwf
  rw [henc] at hlegal
  exact hlegal.2

/-- R84: the listed values are those that are not reserved. -/
theorem legalUop_iff {u : BitVec 10} : LegalUop u ↔ isReserved u = false := by
  refine ⟨isReserved_of_legalUop, fun h => ?_⟩
  obtain ⟨i, hdec⟩ := isReserved_eq_false.1 h
  obtain ⟨henc, hwf⟩ := decodeMicro_ok hdec
  exact legalUop_of_encode hwf henc

/-- The rows of R84: `SCHED` has 48 words, `ROUND` 64, each of the eight other operations one. -/
theorem countAtOp_legalUop : ∀ op < 16, countAtOp (fun u => decide (LegalUop u)) op =
    if 10 ≤ op then 0 else if op = 3 then 48 else if op = 5 then 64 else 1 := by
  decide

theorem count_legalUop :
    ((List.range 1024).filter fun n => decide (LegalUop (BitVec.ofNat 10 n))).length = 120 := by
  rw [count_words_eq_sum fun u => decide (LegalUop u),
    List.map_congr_left fun op hop => countAtOp_legalUop op (List.mem_range.1 hop)]
  rfl

/-- Settles O3: legal is not reserved, which is accepted by the decoder; the count goes row by row. -/
theorem legalValuesOfUop : Obligations.LegalValuesOfUop :=
  ⟨fun _ => isReserved_eq_false.symm.trans legalUop_iff.symm, count_legalUop⟩

/-- Settles O1: nineteen literal words, by evaluation. -/
theorem tableWordsDecode : Obligations.TableWordsDecode :=
  ⟨rfl, rfl, rfl, rfl, rfl, rfl, rfl, rfl, rfl, rfl, rfl, rfl, rfl, rfl, rfl, rfl, rfl, rfl, rfl⟩

/-- Settles O28: the word has the `op` of `SCHED`, whose row answers by the index; the term by the same
comparison. -/
theorem schedBelowSixteenIsRefused : Obligations.SchedBelowSixteenIsRefused := by
  intro s t ht
  have hlow : ¬ 16 ≤ t.toNat := by omega
  refine ⟨⟨_, rfl, ?_⟩, if_neg hlow⟩
  rw [decodeMicro_of_sched (opOf_microWord ..), idxOf_microWord, if_neg hlow]

end Sys2Proof
end

section
/-! PROOFS. One step: the order at one moment (R215), the instruction it performs (R182, R86), and the
host's accesses (R197 to R200). -/

namespace Sys2Proof.Machine

open Sys2Proof.Safety

/-! ### A step whose next move is a moment of the core's inputs -/

/-- What is left of the moment stands first among the moves to come (log 7). -/
theorem step_inputs {s : State} {m : Moment} {rest : List HostMove} (hl : isReserved s.uop = false)
    (h : s.moves = .inputs m :: rest) :
    step s = perform (m.first s.uop).1 { s with moves := (m.first s.uop).2 ++ rest } := by
  simp only [step_of_legal hl, State.nextMove, h]

theorem step_reset {s : State} {m : Moment} {rest : List HostMove} (hl : isReserved s.uop = false)
    (h : s.moves = .inputs m :: rest) (hr : m.reset = true) :
    step s = exec .clear { s with moves := rest } := by
  rw [step_inputs hl h, Moment.first_reset hr]
  rfl

theorem step_clear {s : State} {m : Moment} {rest : List HostMove} (hl : isReserved s.uop = false)
    (h : s.moves = .inputs m :: rest) (hr : m.reset = false) (hc : m.cmd.getLsbD 1 = true) :
    step s = exec .clear { s with moves := m.afterClear ++ rest } := by
  rw [step_inputs hl h, Moment.first_clear hr hc]
  rfl

theorem step_sequencer {s : State} {m : Moment} {rest : List HostMove} {i : Instr}
    (hdec : decodeMicro s.uop = .ok i) (h : s.moves = .inputs m :: rest) (hr : m.reset = false)
    (hc : m.cmd.getLsbD 1 = false) (hs : m.sequencer = true) :
    step s = exec i { s with moves := m.afterSequencer ++ rest } := by
  rw [step_inputs (isReserved_eq_false.2 ⟨i, hdec⟩) h, Moment.first_sequencer hr hc hs, hdec]
  rfl

theorem step_start {s : State} {m : Moment} {rest : List HostMove} (hl : isReserved s.uop = false)
    (h : s.moves = .inputs m :: rest) (hr : m.reset = false) (hc : m.cmd = 0b01)
    (hs : m.sequencer = false) : step s = exec (.start m.len) { s with moves := rest } := by
  rw [step_inputs hl h, Moment.first_start hr hc hs]
  rfl

theorem step_nothing {s : State} {m : Moment} {rest : List HostMove} (hl : isReserved s.uop = false)
    (h : s.moves = .inputs m :: rest) (hr : m.reset = false) (hc : m.cmd = 0b00)
    (hs : m.sequencer = false) : step s = .next { s with moves := rest } := by
  rw [step_inputs hl h, Moment.first_nothing hr hc hs]
  rfl

/-- Settles O11: one rule of `step` per clause. -/
theorem orderAtOneMoment : Obligations.OrderAtOneMoment := by
  intro s m rest hlegal hmoves
  have hl := isReserved_of_legalUop hlegal
  exact ⟨step_reset hl hmoves, step_clear hl hmoves,
    fun _ hr hc hs hdec => step_sequencer hdec hmoves hr hc hs,
    step_start hl hmoves, step_nothing hl hmoves⟩

/-! ### The instruction a step performs -/

/-- Settles O7, by `step_of_decodeMicro`; that the instruction is well-formed follows. -/
theorem stepRunsMicroOperation : Obligations.StepRunsMicroOperation :=
  fun _ _ hmoves hdec _ => step_of_decodeMicro hdec hmoves

/-- A command at a moment of its own: nothing of the moment is left. -/
theorem step_command {s : State} {i : Instr} {cmd : BitVec 2} {len : BitVec Config.lenw}
    {rest : List HostMove} (hl : isReserved s.uop = false) (h : s.moves = command cmd len :: rest)
    (hdec : decodeCommand cmd len = .ok i) : step s = exec i { s with moves := rest } := by
  rcases decodeCommand_cases cmd len with ⟨hclear, he⟩ | ⟨hstart, he⟩ | ⟨-, he⟩ <;> rw [he] at hdec
  · cases hdec
    exact step_clear hl h rfl hclear
  · cases hdec
    exact step_start hl h rfl hstart rfl
  · cases hdec

/-- Settles O8, by `step_command`. -/
theorem stepRunsHostCommand : Obligations.StepRunsHostCommand :=
  fun _ _ _ _ _ hlegal => step_command (isReserved_of_legalUop hlegal)

theorem Moment.afterSequencer_of_no_start {m : Moment} (h : m.cmd.getLsbD 0 = false) :
    m.afterSequencer = [] := by
  rw [Moment.afterSequencer, if_neg (by rw [h]; decide)]

/-- The sequencer's turn at a moment at which the host gives nothing: nothing of the moment is left. -/
theorem step_sequencer_alone {s : State} {len : BitVec Config.lenw} {rest : List HostMove} {i : Instr}
    (hdec : decodeMicro s.uop = .ok i)
    (h : s.moves = .inputs { reset := false, cmd := 0, len := len, sequencer := true } :: rest) :
    step s = exec i { s with moves := rest } := by
  rw [step_sequencer hdec h rfl BitVec.getLsbD_zero rfl,
    Moment.afterSequencer_of_no_start BitVec.getLsbD_zero, List.nil_append]

/-- A micro-operation word that is placed is performed, whether the host has moves to come or not. -/
theorem step_withCode_micro {s : State} {u : BitVec 10} {i : Instr} (hdec : decodeMicro u = .ok i) :
    step (s.withCode (.micro u)) = exec i { s with uop := u } := by
  rcases eq_or_ne s.moves [] with hmoves | hmoves
  · have hplaced : s.withCode (.micro u) = { s with uop := u } := by simp only [State.withCode, hmoves]
    rw [hplaced]
    exact step_of_decodeMicro hdec hmoves
  · obtain ⟨m, ms, hmoves⟩ := List.exists_cons_of_ne_nil hmoves
    have hplaced : s.withCode (.micro u) = { s with
        uop := u
        moves := .inputs { reset := false, cmd := 0, len := 0, sequencer := true } :: s.moves } := by
      simp only [State.withCode, hmoves]
    rw [hplaced]
    exact step_sequencer_alone hdec rfl

/-- Settles O9: what is placed is decoded again (O5). -/
theorem placedInstructionRuns : Obligations.PlacedInstructionRuns := by
  intro s i hwf
  have hdec := decodeOfEncode i hwf
  refine ⟨fun u henc => ?_, fun cmd len henc hlegal => ?_⟩ <;> rw [henc] at hdec ⊢
  · exact step_withCode_micro hdec
  · exact step_command (s := s.withCode (.command cmd len)) (isReserved_of_legalUop hlegal) rfl hdec

/-! ### `CLEAR` and the reset input (R196, R240) -/

theorem decodeMicro_reset : decodeMicro State.reset.uop = .ok .wait := rfl

/-- Settles O40: `State.reset` is a literal, so its registers and outputs compute. -/
theorem stateAfterReset : Obligations.StateAfterReset :=
  ⟨rfl, rfl, rfl, Memory.read_nil, Memory.read_nil, rfl, rfl, rfl, rfl⟩

/-- Settles O38: `CLEAR` answers `State.toReset`. -/
theorem clearGivesResetState : Obligations.ClearGivesResetState :=
  ⟨fun _ _ hclear => if_pos hclear,
    fun s => ⟨s.toReset, rfl, rfl, rfl, rfl, Memory.read_nil, Memory.read_nil, rfl, rfl⟩⟩

/-- The row of `WAIT` in R35's table, with `PHASE` as a phase. -/
theorem State.status_of_wait {s : State} (h : s.uop = 0x000) :
    s.phase = some .init ∧ s.busy = false ∧ s.done = false ∧ s.fault = false := by
  have hop : opOf s.uop = Op.wait := by
    rw [h]
    rfl
  have hphase : s.phase = some .init := by
    rw [State.phase, hop]
    rfl
  obtain ⟨-, hbusy, hdone, hfault⟩ := State.status_of_op hop
  exact ⟨hphase, hbusy, hdone, hfault⟩

/-- Settles O39: the step is that of `CLEAR`. -/
theorem resetInput : Obligations.ResetInput := by
  intro s m rest hlegal hmoves hr
  exact ⟨_, step_reset (isReserved_of_legalUop hlegal) hmoves hr, rfl, rfl, rfl, rfl,
    Memory.read_nil, Memory.read_nil, rfl, State.status_of_wait rfl⟩

/-- Settles O12: the first step is `CLEAR`, and the second is the sequencer's, which finds `WAIT`. -/
theorem clearWinsOverRaisingPad : Obligations.ClearWinsOverRaisingPad := by
  intro s len cmd huop _ hclear hmoves
  have hfirst := step_clear (isReserved_of_legalUop (by rw [huop]; decide)) hmoves rfl hclear
  have hsecond := step_sequencer_alone (i := .wait) (len := len) (rest := [])
    (s := State.toReset { s with
      moves := [.inputs { reset := false, cmd := 0, len := len, sequencer := true }] })
    decodeMicro_reset rfl
  exact ⟨_, (run_succ 1 hfirst).trans (run_succ 0 hsecond), (State.status_of_wait rfl).1,
    rfl, rfl⟩

/-! ### The digest read (R198) -/

theorem State.digestByte_of_done {s : State} {n : Fin 32} {b : Byte} (hdone : s.done = true)
    (hread : Memory.read s.dg n.val = some b) : s.digestByte n = some b := by
  rw [State.digestByte, if_pos hdone, hread]

theorem State.digestByte_of_not_done {s : State} (n : Fin 32) (hdone : s.done = false) :
    s.digestByte n = none := by
  rw [State.digestByte, if_neg (by rw [hdone]; decide)]

theorem hostReadDigest_of_some {s : State} {n : Fin 32} {b : Byte} (h : s.digestByte n = some b) :
    hostReadDigest n s = .next { s with seen := some (.digestByte n b) } := by
  simp only [hostReadDigest, h]

theorem hostReadDigest_of_none {s : State} {n : Fin 32} (h : s.digestByte n = none) :
    hostReadDigest n s = .next { s with
      seen := some (.digestByte n (Config.freeByte s.draws)), draws := s.draws + 1 } := by
  simp only [hostReadDigest, h]
  rfl

/-- Settles O43: the two answers of a digest read. -/
theorem digestRead : Obligations.DigestRead := by
  intro s n rest hlegal hmoves
  rw [step_readDigest (isReserved_of_legalUop hlegal) hmoves]
  exact ⟨fun b hdone hread => hostReadDigest_of_some (State.digestByte_of_done hdone hread),
    fun hdone => hostReadDigest_of_none (State.digestByte_of_not_done n hdone)⟩

/-! ### The message write (R199) -/

theorem hostWriteMessage_of_init {s : State} {a : Nat} (b : Byte) (ha : a < Config.msgCap)
    (hphase : s.phase = some .init) :
    hostWriteMessage a b s = .next { s with msg := Memory.write s.msg a b } := by
  rw [hostWriteMessage, if_pos ha, if_pos hphase]

theorem hostWriteMessage_of_not_init {s : State} {a : Nat} (b : Byte) (ha : a < Config.msgCap)
    (hphase : s.phase ≠ some .init) : hostWriteMessage a b s = .next (writeDuringRun s a) := by
  rw [hostWriteMessage, if_pos ha, if_neg hphase]

/-- Settles O44, by the laws of a byte space. -/
theorem messageWriteInInit : Obligations.MessageWriteInInit := by
  intro s addr b rest hlegal hmoves
  rw [step_writeMessage (isReserved_of_legalUop hlegal) hmoves]
  exact ⟨fun hcap hphase => ⟨_, hostWriteMessage_of_init b hcap hphase, Memory.read_write_same _ _ _,
    Memory.read_write_other _ _ _, rfl⟩, hostWriteMessage_outside⟩

/-! ### Free bytes written into `DG` (log 4, log 5) -/

@[simp] theorem State.freeBytes_length (s : State) (n : Nat) : (s.freeBytes n).length = n := by
  simp [State.freeBytes]

theorem read_writeBytes_freeBytes (dg : Memory) (s : State) {n : Nat} (h : n < 32) :
    Memory.read (Memory.writeBytes dg 0 (s.freeBytes 32)) n = some (Config.freeByte (s.draws + n)) := by
  rw [Memory.read_writeBytes, if_pos (by rw [State.freeBytes_length]; omega)]
  simp [State.freeBytes, h]

/-- What a message write outside Init changes. -/
theorem writeDuringRun_frame (s : State) (a : Nat) :
    writeDuringRun s a = { s with
      msg := (writeDuringRun s a).msg
      dg := (writeDuringRun s a).dg
      hazard := (writeDuringRun s a).hazard
      draws := (writeDuringRun s a).draws } := by
  unfold writeDuringRun
  with_reducible rfl

/-- `DG` after a message write outside Init: free where `done` = 1, else unchanged. -/
theorem writeDuringRun_dg_of_done {s : State} (a : Nat) (hdone : s.done = true) :
    (writeDuringRun s a).dg = Memory.writeBytes s.dg 0 ((s.advanceDraws 1).freeBytes 32) :=
  if_pos hdone

theorem writeDuringRun_dg_of_not_done {s : State} (a : Nat) (hdone : s.done = false) :
    (writeDuringRun s a).dg = s.dg :=
  if_neg (by rw [hdone]; decide)

/-- Beyond the 32 bytes of the digest a message write changes nothing of `DG`. -/
theorem read_writeDuringRun_dg {s : State} (a : Nat) {n : Nat} (h : s.done = false ∨ 32 ≤ n) :
    Memory.read (writeDuringRun s a).dg n = Memory.read s.dg n := by
  cases hdone : s.done with
  | false => rw [writeDuringRun_dg_of_not_done a hdone]
  | true =>
    rw [writeDuringRun_dg_of_done a hdone,
      read_writeBytes_of_length_32 _ (State.freeBytes_length _ _) (h.resolve_left (by simp [hdone]))]

/-- Settles O45: `writeDuringRun` field by field. -/
theorem messageWriteOutsideInit : Obligations.MessageWriteOutsideInit := by
  intro s addr b rest hlegal hmoves hcap hphase
  rw [step_writeMessage (isReserved_of_legalUop hlegal) hmoves]
  refine ⟨_, hostWriteMessage_of_not_init b hcap hphase, rfl, rfl, Memory.read_write_same _ _ _,
    fun hdone n hn => ?_, Memory.read_write_other _ _ _,
    fun a ha => read_writeDuringRun_dg (s := { s with moves := rest }) addr ha,
    writeDuringRun_frame _ _⟩
  rw [writeDuringRun_dg_of_done (s := { s with moves := rest }) addr hdone,
    read_writeBytes_freeBytes _ _ hn]
  rfl

/-- `DIGEST` where a message write marked the run. -/
theorem execDigest_of_hazard {s : State} (h : s.hazard = true) :
    execDigest s = .next { s with
      dg := Memory.writeBytes s.dg 0 (s.freeBytes 32), uop := 0x200, draws := s.draws + 32 } := by
  rw [execDigest, if_pos h, State.goto, State.advanceDraws,
    show microWord Op.halt 0 = 0x200 from rfl]

/-- Settles O35: the byte written at `n` is the `n`-th draw, and the write ends at the 32nd byte. -/
theorem digestAfterMessageWrite : Obligations.DigestAfterMessageWrite := by
  refine fun s hhazard => ⟨_, execDigest_of_hazard hhazard, fun n hn => ?_, fun a ha => ?_, ?_⟩
  · rw [read_writeBytes_freeBytes s.dg s hn]
  · rw [read_writeBytes_of_length_32 s.dg (State.freeBytes_length s 32) ha]
  · with_reducible rfl

end Sys2Proof.Machine
end

section
/-! PROOFS. The padder once more: the padded length is the least (R120), padding loses nothing (R126),
and the stop at an unwritten byte of the message (R253); and the stops of the block parser (R58). -/

namespace Sys2Proof.Machine

open Sys2Proof.Safety

/-! ### The least padded length (R120, R126) -/

theorem paddedLength_eq (L : Nat) : paddedLength L = 64 * ((L + 8) / 64 + 1) := by
  have := zeroFill_lt L
  have := zeroFill_add_mod L
  unfold paddedLength
  omega

theorem blockCount_eq (L : Nat) : blockCount L = (L + 8) / 64 + 1 := by
  rw [blockCount, paddedLength_eq, Nat.mul_div_cancel_left _ (by decide)]

/-- A block below the count lies within the padded message. -/
theorem block_le_padBytes_length {M : List Byte} {i : Nat} (h : i < blockCount M.length) :
    64 * i + 64 ≤ (padBytes M).length := by
  have := blockCount_mul M.length
  rw [padBytes_length]
  omega

theorem afterPad_nblk_pos (s : State) {M : List Byte} (hfits : 8 * M.length ≤ 2 ^ 64 - 1) :
    1 ≤ (s.afterPad M).nblk.toNat := by
  rw [afterPad_nblk_toNat s hfits, blockCount_eq]
  omega

/-- `PAD` establishes the relation of R32. -/
theorem afterPad_plen_eq (s : State) {M : List Byte} (hfits : 8 * M.length ≤ 2 ^ 64 - 1) :
    (s.afterPad M).plen.toNat = 64 * (s.afterPad M).nblk.toNat := by
  rw [afterPad_plen_toNat s hfits, afterPad_nblk_toNat s hfits, Nat.mul_comm, blockCount_mul]

theorem holds_afterPad_pm (s : State) (M : List Byte) : Holds (s.afterPad M).pm 0 (padBytes M) :=
  fun j _ => by rw [Nat.zero_add, read_afterPad_pm]

/-- Settles O20: `PLEN` and `NBLK` by their closed forms; the bounds are arithmetic on these. -/
theorem paddedLengthIsMinimal : Obligations.PaddedLengthIsMinimal := by
  intro s t hfits hexec
  obtain ⟨M, hlen, -, rfl⟩ := execPad_next_of_fits hfits hexec
  rw [hlen] at hfits
  have hplen := (afterPad_plen_toNat s hfits).trans (paddedLength_eq _)
  have hnblk := (afterPad_nblk_toNat s hfits).trans (blockCount_eq _)
  rw [hplen, hlen]
  exact ⟨rfl, hnblk, by omega, by omega, fun Q hQ hle => by omega⟩

/-! ### Padding is injective (R126 (h)) -/

theorem getElem?_bytesBe64_sub (n : BitVec 64) {k : Nat} (h : k < 8) :
    (bytesBe64 n)[7 - k]? = some (n.extractLsb' (8 * k) 8) := by
  interval_cases k <;> rfl

/-- The eight bytes of a 64-bit value determine it: bit `j` stands in the byte with `j / 8` below it. -/
theorem bytesBe64_injective : Function.Injective bytesBe64 := by
  intro m n h
  refine BitVec.eq_of_getLsbD_eq fun j hj => ?_
  have hk : j / 8 < 8 := by omega
  have hbyte : m.extractLsb' (8 * (j / 8)) 8 = n.extractLsb' (8 * (j / 8)) 8 := by
    rw [← Option.some_inj, ← getElem?_bytesBe64_sub m hk, ← getElem?_bytesBe64_sub n hk, h]
  have hbit := congrArg (fun byte => BitVec.getLsbD byte (j % 8)) hbyte
  simpa [BitVec.getLsbD_extractLsb', Nat.mod_lt, Nat.div_add_mod] using hbit

/-- Settles O21: the last eight bytes give the bit-length, and so the length of the message, which stands
before the rest. -/
theorem paddingIsInjective : Obligations.PaddingIsInjective := by
  intro M N hM hN h
  obtain ⟨hfront, hfield⟩ := List.append_inj' h rfl
  have hbits : (BitVec.ofNat 64 (8 * M.length)).toNat = (BitVec.ofNat 64 (8 * N.length)).toNat :=
    congrArg _ (bytesBe64_injective hfield)
  have hlen : M.length = N.length := by
    rw [BitVec.toNat_ofNat, BitVec.toNat_ofNat] at hbits
    omega
  rw [List.append_assoc, List.append_assoc] at hfront
  exact (List.append_inj hfront hlen).1

/-! ### The stops of `PAD` and `LDBLK` -/

/-- `PAD` where the bit-length fits and a byte of the message holds no value (R253, U7). -/
theorem execPad_of_unwritten {s : State} {j : Nat} (hfits : 8 * s.mlen.toNat ≤ 2 ^ 64 - 1)
    (hj : j < s.mlen.toNat) (hread : Memory.read s.msg j = none) :
    execPad s = .fault .unwrittenMessageByte := by
  have hnone : Memory.readBytes s.msg 0 s.messageLength = none :=
    Memory.readBytes_eq_none.2 ⟨j, hj, by rwa [Nat.zero_add]⟩
  have hno : overflows s.messageLength = false := overflows_eq_false hfits
  rw [execPad, if_neg (by rw [hno]; decide), hnone]

/-- Settles O24, by `execPad_of_unwritten`. -/
theorem padStopsOnUnwrittenMessage : Obligations.PadStopsOnUnwrittenMessage :=
  fun _ _ => execPad_of_unwritten

theorem readWords_eq_none {m : Memory} {a n k : Nat} (hk : k < 4 * n)
    (hread : Memory.read m (a + k) = none) : Memory.readWords m a n = none := by
  have hnone : Memory.readBytes m a (4 * n) = none := Memory.readBytes_eq_none.2 ⟨k, hk, hread⟩
  simp only [Memory.readWords, hnone]

/-- Settles O26: the range check fails outside; inside, the block has a byte without a value. -/
theorem ldblkStops : Obligations.LdblkStops := by
  refine ⟨fun s hout => ?_, fun s k hblk hplen hk hread => ?_⟩
  · have hrange : ¬ s.blockInRange = true := by
      simp only [State.blockInRange, Bool.and_eq_true, decide_eq_true_eq]
      omega
    exact if_neg hrange
  · have hnone : Memory.readWords s.pm s.blockAddress 16 = none := readWords_eq_none hk hread
    simp only [exec, execLdblk, if_pos ((blockInRange_iff hplen).2 hblk), hnone]

end Sys2Proof.Machine
end

section
/-! PROOFS. What changes over all instructions and all moves of the host: the frames of the registers and
of the byte spaces, and one inversion of a step that the invariants below share. -/

namespace Sys2Proof.Machine

open Sys2Proof.Safety

/-! ### Frames over all instructions -/

/-- Settles O46: each instruction by its own inversion; what it does not name, its update leaves. -/
theorem whoWritesWhichRegister : Obligations.WhoWritesWhichRegister := by
  intro i s t h hclear
  cases i with
  | wait => cases h; simp
  | pad => rcases execPad_next h with ⟨-, rfl⟩ | ⟨-, -, -, rfl⟩ <;> simp
  | ldblk => obtain ⟨-, -, -, rfl⟩ := execLdblk_next h; simp
  | sched k => obtain ⟨-, rfl⟩ := execSched_next h; simp
  | initwv => cases execInitwv_next h; simp
  | round k => cases execRound_next h; simp
  | addback => cases execAddback_next h; simp
  | digest => rcases execDigest_next h with ⟨-, rfl⟩ | ⟨-, rfl⟩ <;> simp
  | halt => cases h; simp
  | fhalt => cases h; simp
  | start len => rcases execStart_next h with ⟨-, rfl⟩ | ⟨-, rfl⟩ <;> simp
  | clear => exact absurd rfl hclear

/-- Which byte space an instruction writes (R50 to R53). -/
theorem exec_byteSpaces {i : Instr} {s t : State} (h : exec i s = .next t) (hclear : i ≠ .clear) :
    t.msg = s.msg ∧ (i ≠ .pad → t.pm = s.pm) ∧ (i ≠ .digest → t.dg = s.dg) := by
  cases i with
  | wait => cases h; simp
  | pad => rcases execPad_next h with ⟨-, rfl⟩ | ⟨-, -, -, rfl⟩ <;> simp
  | ldblk => obtain ⟨-, -, -, rfl⟩ := execLdblk_next h; simp
  | sched k => obtain ⟨-, rfl⟩ := execSched_next h; simp
  | initwv => cases execInitwv_next h; simp
  | round k => cases execRound_next h; simp
  | addback => cases execAddback_next h; simp
  | digest => rcases execDigest_next h with ⟨-, rfl⟩ | ⟨-, rfl⟩ <;> simp
  | halt => cases h; simp
  | fhalt => cases h; simp
  | start len => rcases execStart_next h with ⟨-, rfl⟩ | ⟨-, rfl⟩ <;> simp
  | clear => exact absurd rfl hclear

/-- `DIGEST` writes 32 bytes into `DG`, those of `H` where the run is not marked (R171, log 5). -/
theorem execDigest_written {s t : State} (h : execDigest s = .next t) :
    ∃ (bs : List Byte) (draws : Nat), bs.length = 32 ∧ (s.hazard = false → bs = digestBytes s.H) ∧
      t = State.goto { s with dg := Memory.writeBytes s.dg 0 bs, draws := draws } Op.halt 0 := by
  rcases execDigest_next h with ⟨hmark, rfl⟩ | ⟨-, rfl⟩
  · refine ⟨s.freeBytes 32, s.draws + 32, State.freeBytes_length s 32, fun hstable => ?_, ?_⟩
    · exact absurd hstable (by rw [hmark]; decide)
    · rw [State.advanceDraws]
  · exact ⟨digestBytes s.H, s.draws, digestBytes_length s.H, fun _ => rfl, by with_reducible rfl⟩

/-- Settles O47: a byte space that is not written is the same, and of `DG` only the 32 bytes are. -/
theorem onlyStoredBytesChange : Obligations.OnlyStoredBytesChange := by
  intro i s t h hclear a
  obtain ⟨hmsg, hpm, hdg⟩ := exec_byteSpaces h hclear
  refine ⟨by rw [hmsg], fun hi => by rw [hpm hi], fun hi => ?_⟩
  by_cases hdigest : i = .digest
  · subst hdigest
    obtain ⟨bs, draws, hlen, -, rfl⟩ := execDigest_written h
    rw [State.goto_dg, read_writeBytes_of_length_32 _ hlen (hi.resolve_left (absurd rfl))]
  · rw [hdg hdigest]

/-- Settles O23: but for `PAD`, `START` and `CLEAR` no instruction writes `ERR` (O46), and these two
write 0 into it. -/
theorem onlyPadRaises : Obligations.OnlyPadRaises := by
  intro i s t h hs ht
  have hne : t.err ≠ .noError := by
    rw [ht]
    decide
  cases i with
  | pad =>
    refine ⟨rfl, ?_⟩
    rcases execPad_next h with ⟨hraise, -⟩ | ⟨-, _, -, rfl⟩
    · exact overflows_eq_true_iff.1 hraise
    · exact absurd hs hne
  | start len =>
    rcases execStart_next h with ⟨-, rfl⟩ | ⟨-, rfl⟩
    · exact absurd rfl hne
    · exact absurd hs hne
  | clear =>
    cases h
    exact absurd rfl hne
  | _ =>
    obtain ⟨-, -, -, -, -, -, herr, -⟩ := whoWritesWhichRegister _ s t h (by simp)
    exact absurd ((herr (by simp) (by simp)).trans hs) hne

/-! ### What a step can be -/

/-- What a step at `s` with the outcome `o` is, and what the host gave for it. In each case the moves
`ms` are those then still to come. -/
inductive StepCase (s : State) (o : Host.Outcome State Fault Refusal) : Prop where
  /-- The micro-operation in `UOP`. -/
  | micro (i : Instr) (ms : List HostMove) (hdec : decodeMicro s.uop = .ok i)
      (ho : exec i { s with moves := ms } = o)
  /-- The host's `START`. -/
  | start (len : BitVec Config.lenw) (ms : List HostMove)
      (ho : execStart len { s with moves := ms } = o)
  /-- The reset input or the host's `CLEAR`, which have one effect (R240). -/
  | clear (m : Moment) (rest ms : List HostMove) (hmoves : s.moves = .inputs m :: rest)
      (hclear : m.reset = true ∨ m.cmd.getLsbD 1 = true)
      (ho : .next (State.toReset { s with moves := ms }) = o)
  /-- The command word 00. -/
  | nothing (ms : List HostMove) (ho : .next { s with moves := ms } = o)
  | write (a : Nat) (b : Byte) (rest : List HostMove) (hmoves : s.moves = .writeMessage a b :: rest)
      (ho : hostWriteMessage a b { s with moves := rest } = o)
  | readStatus (rest : List HostMove) (hmoves : s.moves = .readStatus :: rest)
      (ho : hostReadStatus { s with moves := rest } = o)
  | readDigest (n : Fin 32) (rest : List HostMove) (hmoves : s.moves = .readDigest n :: rest)
      (ho : hostReadDigest n { s with moves := rest } = o)

/-- Every step at a `UOP` that is not reserved is one of these: by the host's next move, and for a moment
of the core's inputs by the order of R215. -/
theorem stepCase_of_legal {s : State} (hl : isReserved s.uop = false) : StepCase s (step s) := by
  obtain ⟨i, hdec⟩ := isReserved_eq_false.1 hl
  match hmoves : s.moves with
  | [] => exact .micro i s.moves hdec (step_of_decodeMicro hdec hmoves).symm
  | .inputs m :: rest =>
    cases hr : m.reset with
    | true => exact .clear m rest rest hmoves (.inl hr) (step_reset hl hmoves hr).symm
    | false =>
      cases hc : m.cmd.getLsbD 1 with
      | true => exact .clear m rest _ hmoves (.inr hc) (step_clear hl hmoves hr hc).symm
      | false =>
        cases hs : m.sequencer with
        | true => exact .micro i _ hdec (step_sequencer hdec hmoves hr hc hs).symm
        | false =>
          rcases decodeCommand_cases m.cmd m.len with ⟨hc', -⟩ | ⟨hstart, -⟩ | ⟨hnone, -⟩
          · exact absurd hc' (by rw [hc]; decide)
          · exact .start m.len rest (step_start hl hmoves hr hstart hs).symm
          · exact .nothing rest (step_nothing hl hmoves hr hnone hs).symm
  | .writeMessage a b :: rest => exact .write a b rest hmoves (step_writeMessage hl hmoves).symm
  | .readStatus :: rest => exact .readStatus rest hmoves (step_readStatus hl hmoves).symm
  | .readDigest n :: rest => exact .readDigest n rest hmoves (step_readDigest hl hmoves).symm

theorem stepCase_of_next {s t : State} (h : step s = .next t) : StepCase s (.next t) :=
  h ▸ stepCase_of_legal (step_next_legal h)

end Sys2Proof.Machine
end

section
/-! PROOFS. The sequencer (R182): the rows of its table, and the two phases that only `CLEAR` and reset
leave (R185, R186, R214). -/

namespace Sys2Proof.Machine

open Sys2Proof.Safety

/-! ### The table of R182 -/

/-- A row of the table is a write of `UOP`, which leaves `BLK`. -/
theorem State.goto_uop_blk (s : State) {op : BitVec 4} {idx : BitVec 6} {u : BitVec 10}
    (h : microWord op idx = u) : (s.goto op idx).uop = u ∧ (s.goto op idx).blk = s.blk := ⟨h, rfl⟩

/-- `PAD` where the bit-length fits: `UOP` moves on and `BLK` stays. -/
theorem execPad_uop_blk {s t : State} (hfits : 8 * s.mlen.toNat ≤ 2 ^ 64 - 1)
    (h : execPad s = .next t) : t.uop = 0x080 ∧ t.blk = s.blk := by
  obtain ⟨M, -, -, rfl⟩ := execPad_next_of_fits hfits h
  exact State.goto_uop_blk _ rfl

theorem execLdblk_uop_blk {s t : State} (h : execLdblk s = .next t) :
    t.uop = 0x0D0 ∧ t.blk = s.blk := by
  obtain ⟨-, _, -, rfl⟩ := execLdblk_next h
  exact State.goto_uop_blk _ rfl

theorem execSched_uop_blk {s t : State} {k : Nat} (hk : k < 64) (h16 : 16 ≤ k)
    (h : execSched (BitVec.ofNat 6 k) s = .next t) :
    t.uop = BitVec.ofNat 10 (0x0C0 + (k + 1)) ∧ t.blk = s.blk := by
  rw [execSched_of_le hk h16] at h
  cases h
  exact ⟨rfl, rfl⟩

theorem decodeMicro_round {k : Nat} (hk : k < 64) :
    decodeMicro (BitVec.ofNat 10 (0x140 + k)) = .ok (.round (BitVec.ofNat 6 k)) := by
  rw [← microWord_round hk, decodeMicro_microWord_round]

theorem execRound_uop_blk {s t : State} {k : Nat} (hk : k < 64)
    (h : execRound (BitVec.ofNat 6 k) s = .next t) :
    t.uop = BitVec.ofNat 10 (0x140 + (k + 1)) ∧ t.blk = s.blk := by
  rw [execRound_of_lt hk] at h
  cases h
  exact ⟨rfl, rfl⟩

/-- The successor of `BLK` fits where `BLK` is below `NBLK`. -/
theorem toNat_blk_add_one {s : State} (hblk : s.blk.toNat < s.nblk.toNat) :
    (s.blk + 1).toNat = s.blk.toNat + 1 := by
  have := s.nblk.isLt
  exact Nat.mod_eq_of_lt (show s.blk.toNat + 1 < 2 ^ Config.blkw by omega)

theorem execAddback_uop_blk {s t : State} (hle : s.blk.toNat + 1 ≤ s.nblk.toNat)
    (h : execAddback s = .next t) :
    t.uop = (if s.blk.toNat + 1 < s.nblk.toNat then 0x080 else 0x1C0) ∧
      t.blk.toNat = s.blk.toNat + 1 := by
  rw [execAddback_eq] at h
  cases h
  exact ⟨rfl, toNat_blk_add_one (Nat.lt_of_succ_le hle)⟩

theorem execDigest_uop_blk {s t : State} (h : execDigest s = .next t) :
    t.uop = 0x200 ∧ t.blk = s.blk := by
  rcases execDigest_next h with ⟨-, rfl⟩ | ⟨-, rfl⟩
  · rw [State.goto_uop, State.goto_blk, State.advanceDraws_blk]
    exact ⟨rfl, rfl⟩
  · rw [State.goto_uop, State.goto_blk]
    exact ⟨rfl, rfl⟩

/-- Settles O48: with no host move a step is the micro-operation that the row's `UOP` decodes to. -/
theorem nextUopTable : Obligations.NextUopTable := by
  intro s t hmoves h
  have hexec : ∀ {u : BitVec 10} {i : Instr}, s.uop = u → decodeMicro u = .ok i → exec i s = .next t :=
    fun hu hdec => (step_of_decodeMicro (hu ▸ hdec) hmoves).symm.trans h
  refine ⟨fun hu => ?_, fun hu hfits => execPad_uop_blk hfits (hexec hu rfl), fun hu hover => ?_,
    fun hu => execLdblk_uop_blk (hexec hu rfl), fun k hlo hhi hu => ?_, fun hu => ?_, fun hu => ?_,
    fun k hhi hu => ?_, fun hu => ?_, fun hu hlt => ?_, fun hu heq => ?_,
    fun hu => execDigest_uop_blk (hexec hu rfl), fun hu => ?_, fun hu => ?_⟩
  · cases hexec hu (i := .wait) rfl
    exact ⟨rfl, rfl⟩
  · cases (execPad_of_overflow hover).symm.trans (hexec hu (i := .pad) rfl)
    exact ⟨rfl, rfl⟩
  · exact execSched_uop_blk (by omega) hlo (hexec hu (decodeMicro_sched (by omega) hlo))
  · exact execSched_uop_blk (k := 63) (by decide) (by decide) (hexec hu rfl)
  · cases hexec hu (i := .initwv) rfl
    exact ⟨rfl, rfl⟩
  · exact execRound_uop_blk (by omega) (hexec hu (decodeMicro_round (by omega)))
  · exact execRound_uop_blk (k := 63) (by decide) (hexec hu rfl)
  · have hrow := execAddback_uop_blk (by omega) (hexec hu rfl)
    rwa [if_pos hlt] at hrow
  · have hrow := execAddback_uop_blk (by omega) (hexec hu rfl)
    rwa [if_neg (by omega)] at hrow
  · cases hexec hu (i := .halt) rfl
    exact ⟨rfl, rfl⟩
  · cases hexec hu (i := .fhalt) rfl
    exact ⟨rfl, rfl⟩

/-! ### Done and Fault are left by `CLEAR` and reset only -/

/-- A message write changes nothing of the core but `MSG` and `DG`, and `DG` only while `done` = 1. -/
theorem hostWriteMessage_frame {s t : State} {a : Nat} {b : Byte}
    (h : hostWriteMessage a b s = .next t) :
    t = { s with msg := t.msg, dg := t.dg, hazard := t.hazard, draws := t.draws } ∧
      (t.dg = s.dg ∨ s.done = true) := by
  obtain ⟨-, ⟨-, rfl⟩ | ⟨-, rfl⟩⟩ := hostWriteMessage_next h
  · exact ⟨rfl, .inl rfl⟩
  · refine ⟨writeDuringRun_frame s a, ?_⟩
    cases hdone : s.done with
    | true => exact .inr rfl
    | false => exact .inl (writeDuringRun_dg_of_not_done a hdone)

/-- A host read changes the host's side only. -/
theorem hostReadStatus_frame {s t : State} (h : hostReadStatus s = .next t) :
    t = { s with seen := t.seen, draws := t.draws } := by
  obtain ⟨p, -, rfl⟩ := hostReadStatus_next h
  rfl

theorem hostReadDigest_frame {s t : State} {n : Fin 32} (h : hostReadDigest n s = .next t) :
    t = { s with seen := t.seen, draws := t.draws } := by
  rcases hostReadDigest_next h with ⟨b, -, rfl⟩ | ⟨-, rfl⟩
  · rfl
  · rfl

/-- The host gives the reset input or the clear bit at the next moment. -/
def State.Clears (s : State) : Prop :=
  ∃ m rest, s.moves = .inputs m :: rest ∧ (m.reset = true ∨ m.cmd.getLsbD 1 = true)

/-- `HALT` and `FHALT` at their own words change nothing. -/
theorem exec_at_rest {s : State} {i : Instr} (huop : s.uop = 0x200 ∨ s.uop = 0x240)
    (hdec : decodeMicro s.uop = .ok i) : exec i s = .next s := by
  rcases huop with hu | hu
  · have hi : i = .halt := by
      rw [hu] at hdec
      cases hdec
      rfl
    rw [hi, exec, execHalt_eq, ← hu]
  · have hi : i = .fhalt := by
      rw [hu] at hdec
      cases hdec
      rfl
    rw [hi, exec, execFhalt_eq, ← hu]

/-- A step from `(HALT, 0)` or `(FHALT, 0)` keeps every register, and `DG` but for a message write at
`done` = 1, unless the host clears the core. -/
theorem step_at_rest {s t : State} (huop : s.uop = 0x200 ∨ s.uop = 0x240) (h : step s = .next t) :
    (t = { s with moves := t.moves, msg := t.msg, dg := t.dg, seen := t.seen, draws := t.draws,
                  hazard := t.hazard } ∧
      (t.dg = s.dg ∨ s.done = true ∧ ∃ a b rest, s.moves = .writeMessage a b :: rest)) ∨
    (t.uop = 0x000 ∧ t.err = .noError ∧ s.Clears) := by
  cases stepCase_of_next h with
  | micro i ms hdec ho =>
    rw [exec_at_rest (s := { s with moves := ms }) huop hdec] at ho
    cases ho
    exact .inl ⟨rfl, .inl rfl⟩
  | start len ms ho =>
    have hwait : s.uop ≠ 0x000 := by
      rcases huop with hu | hu <;> rw [hu] <;> decide
    rw [execStart_of_ne_wait (s := { s with moves := ms }) hwait] at ho
    cases ho
    exact .inl ⟨rfl, .inl rfl⟩
  | clear m rest ms hmoves hclear ho =>
    cases ho
    exact .inr ⟨rfl, rfl, m, rest, hmoves, hclear⟩
  | nothing ms ho =>
    cases ho
    exact .inl ⟨rfl, .inl rfl⟩
  | write a b rest hmoves ho =>
    obtain ⟨hframe, hdg⟩ := hostWriteMessage_frame ho
    refine .inl ⟨?_, hdg.imp_right fun hdone => ⟨hdone, a, b, rest, hmoves⟩⟩
    rw [hframe]
  | readStatus rest hmoves ho =>
    have hframe := hostReadStatus_frame ho
    refine .inl ⟨?_, .inl ?_⟩ <;> rw [hframe]
  | readDigest n rest hmoves ho =>
    have hframe := hostReadDigest_frame ho
    refine .inl ⟨?_, .inl ?_⟩ <;> rw [hframe]

/-- Settles O56: `done` = 0 in `(FHALT, 0)`, so `DG` is kept. -/
theorem faultLeftByClearOrReset : Obligations.FaultLeftByClearOrReset := by
  intro s t huop h
  have hdone : s.done = false := (State.fault_and_not_done_of_fhalt huop).2
  refine (step_at_rest (.inr huop) h).imp (fun ⟨hframe, hdg⟩ => ?_) id
  have hdg : t.dg = s.dg := hdg.resolve_right fun hwrite => by simp [hdone] at hwrite
  rw [hframe]
  exact ⟨huop, rfl, hdg⟩

/-- Settles O57, by `step_at_rest`. -/
theorem haltLeftByClearOrReset : Obligations.HaltLeftByClearOrReset := by
  intro s t huop h
  refine (step_at_rest (.inl huop) h).imp (fun ⟨hframe, hdg⟩ => ?_) fun ⟨hwait, _, hclear⟩ =>
    ⟨hwait, hclear⟩
  have hdg : t.dg = s.dg ∨ ∃ a b rest, s.moves = .writeMessage a b :: rest := hdg.imp_right And.right
  rw [hframe]
  exact ⟨huop, rfl, rfl, rfl, hdg⟩

/-! ### What the sequence of micro-operations depends on (R187, R261) -/

/-- `UOP`, `BLK`, `NBLK`, `PLEN`, `MLEN` and the host's moves. -/
def State.control (s : State) :
    BitVec 10 × BitVec Config.blkw × BitVec Config.blkw × BitVec 62 × BitVec Config.lenw ×
      List HostMove :=
  (s.uop, s.blk, s.nblk, s.plen, s.mlen, s.moves)

theorem State.control_eq_iff {s₁ s₂ : State} :
    s₁.control = s₂.control ↔ s₁.uop = s₂.uop ∧ s₁.blk = s₂.blk ∧ s₁.nblk = s₂.nblk ∧
      s₁.plen = s₂.plen ∧ s₁.mlen = s₂.mlen ∧ s₁.moves = s₂.moves := by
  simp [State.control]

/-- What an instruction writes into the control registers it computes from these alone. -/
theorem exec_control {i : Instr} {s₁ s₂ t₁ t₂ : State} (h : s₁.control = s₂.control)
    (h₁ : exec i s₁ = .next t₁) (h₂ : exec i s₂ = .next t₂) : t₁.control = t₂.control := by
  rw [State.control_eq_iff] at h ⊢
  obtain ⟨huop, hblk, hnblk, hplen, hmlen, hmoves⟩ := h
  cases i with
  | wait => cases h₁; cases h₂; simp [*]
  | pad =>
    have hlen : s₁.messageLength = s₂.messageLength := congrArg BitVec.toNat hmlen
    rcases execPad_next h₁ with ⟨ho₁, rfl⟩ | ⟨ho₁, -, -, rfl⟩ <;>
      rcases execPad_next h₂ with ⟨ho₂, rfl⟩ | ⟨ho₂, -, -, rfl⟩ <;> simp_all
  | ldblk =>
    obtain ⟨-, -, -, rfl⟩ := execLdblk_next h₁
    obtain ⟨-, -, -, rfl⟩ := execLdblk_next h₂
    simp [*]
  | sched k =>
    obtain ⟨-, rfl⟩ := execSched_next h₁
    obtain ⟨-, rfl⟩ := execSched_next h₂
    simp [*]
  | initwv => cases execInitwv_next h₁; cases execInitwv_next h₂; simp [*]
  | round k => cases execRound_next h₁; cases execRound_next h₂; simp [*]
  | addback => cases execAddback_next h₁; cases execAddback_next h₂; simp [*]
  | digest =>
    rcases execDigest_next h₁ with ⟨-, rfl⟩ | ⟨-, rfl⟩ <;>
      rcases execDigest_next h₂ with ⟨-, rfl⟩ | ⟨-, rfl⟩ <;> simp [*]
  | halt => cases h₁; cases h₂; simp [*]
  | fhalt => cases h₁; cases h₂; simp [*]
  | start len =>
    rcases execStart_next h₁ with ⟨hw₁, rfl⟩ | ⟨hw₁, rfl⟩ <;>
      rcases execStart_next h₂ with ⟨hw₂, rfl⟩ | ⟨hw₂, rfl⟩ <;> simp_all
  | clear => cases h₁; cases h₂; simp [*]

theorem hostWriteMessage_control {s t : State} {a : Nat} {b : Byte}
    (h : hostWriteMessage a b s = .next t) : t.control = s.control := by
  rw [(hostWriteMessage_frame h).1]
  rfl

theorem hostReadStatus_control {s t : State} (h : hostReadStatus s = .next t) :
    t.control = s.control := by
  rw [hostReadStatus_frame h]
  rfl

theorem hostReadDigest_control {s t : State} {n : Fin 32} (h : hostReadDigest n s = .next t) :
    t.control = s.control := by
  rw [hostReadDigest_frame h]
  rfl

theorem perform_control {a : Action} {s₁ s₂ t₁ t₂ : State} (h : s₁.control = s₂.control)
    (h₁ : perform a s₁ = .next t₁) (h₂ : perform a s₂ = .next t₂) : t₁.control = t₂.control := by
  cases a with
  | perform i => exact exec_control h h₁ h₂
  | reserved => cases h₁
  | nothing => cases h₁; cases h₂; exact h
  | reset => exact exec_control (i := .clear) h h₁ h₂
  | writeMessage a b =>
    rw [hostWriteMessage_control h₁, hostWriteMessage_control h₂, h]
  | readStatus => rw [hostReadStatus_control h₁, hostReadStatus_control h₂, h]
  | readDigest n => rw [hostReadDigest_control h₁, hostReadDigest_control h₂, h]

/-- What a step does depends on `UOP` and on the host's moves. -/
theorem nextAction_congr {s₁ s₂ : State} (huop : s₁.uop = s₂.uop) (hmoves : s₁.moves = s₂.moves) :
    s₁.nextAction = s₂.nextAction := by
  simp only [State.nextAction, State.nextMove, huop, hmoves]

/-- Settles O59: both states perform the same action, from the same control registers. -/
theorem sequenceDependsOnLengthOnly : Obligations.SequenceDependsOnLengthOnly := by
  intro s₁ s₂ t₁ t₂ huop hblk hnblk hplen hmlen hmoves h₁ h₂
  have haction := nextAction_congr huop hmoves
  rw [step, haction] at h₁
  rw [step] at h₂
  have hstart : State.control { s₁ with moves := s₂.nextAction.2 } =
      State.control { s₂ with moves := s₂.nextAction.2 } :=
    State.control_eq_iff.2 ⟨huop, hblk, hnblk, hplen, hmlen, rfl⟩
  exact State.control_eq_iff.1 (perform_control hstart h₁ h₂)

/-! ### What the host can see (R37) -/

/-- The host's next move is a read. -/
def State.Reads (s : State) : Prop :=
  ∃ rest, s.moves = .readStatus :: rest ∨ ∃ n, s.moves = .readDigest n :: rest

/-- Only a read writes what the host has seen. -/
theorem step_keeps_seen {s t : State} (hread : ¬ s.Reads) (h : step s = .next t) : t.seen = s.seen := by
  cases stepCase_of_next h with
  | micro i ms hdec ho =>
    by_cases hclear : i = .clear
    · subst hclear
      cases ho
      rfl
    · obtain ⟨-, -, -, -, -, -, -, -, hseen⟩ := whoWritesWhichRegister i _ t ho hclear
      exact hseen
  | start len ms ho =>
    obtain ⟨-, -, -, -, -, -, -, -, hseen⟩ := whoWritesWhichRegister (.start len) _ t ho (by simp)
    exact hseen
  | clear m rest ms hmoves hclear ho => cases ho; rfl
  | nothing ms ho => cases ho; rfl
  | write a b rest hmoves ho => rw [(hostWriteMessage_frame ho).1]
  | readStatus rest hmoves ho => exact absurd ⟨rest, .inl hmoves⟩ hread
  | readDigest n rest hmoves ho => exact absurd ⟨rest, .inr ⟨n, hmoves⟩⟩ hread

/-- Two status reads of equal outputs return the same. -/
theorem hostReadStatus_seen_congr {s₁ s₂ t₁ t₂ : State} (h₁ : hostReadStatus s₁ = .next t₁)
    (h₂ : hostReadStatus s₂ = .next t₂) (hphase : s₁.phase = s₂.phase) (hbusy : s₁.busy = s₂.busy)
    (hdone : s₁.done = s₂.done) (hfault : s₁.fault = s₂.fault) (herr : s₁.err = s₂.err) :
    t₁.seen = t₂.seen := by
  obtain ⟨p, hp₁, rfl⟩ := hostReadStatus_next h₁
  obtain ⟨q, hp₂, rfl⟩ := hostReadStatus_next h₂
  have hpq : p = q := Option.some_inj.1 (hp₁.symm.trans (hphase.trans hp₂))
  simp only [hpq, hbusy, hdone, hfault, herr]

/-- Two digest reads of equal outputs, at equal counts of draws, return the same. -/
theorem hostReadDigest_seen_congr {s₁ s₂ t₁ t₂ : State} {n : Fin 32}
    (h₁ : hostReadDigest n s₁ = .next t₁) (h₂ : hostReadDigest n s₂ = .next t₂)
    (hdone : s₁.done = s₂.done) (hdg : s₁.dg = s₂.dg) (hdraws : s₁.draws = s₂.draws) :
    t₁.seen = t₂.seen := by
  have hbyte : s₁.digestByte n = s₂.digestByte n := by simp only [State.digestByte, hdone, hdg]
  cases hb : s₂.digestByte n with
  | some b =>
    cases (hostReadDigest_of_some (hbyte.trans hb)).symm.trans h₁
    cases (hostReadDigest_of_some hb).symm.trans h₂
    rfl
  | none =>
    cases (hostReadDigest_of_none (hbyte.trans hb)).symm.trans h₁
    cases (hostReadDigest_of_none hb).symm.trans h₂
    rw [hdraws]

/-- Settles O60: a read is answered from the outputs, and nothing else writes what the host has seen. -/
theorem hostSeesOnlyOutputs : Obligations.HostSeesOnlyOutputs := by
  intro s₁ s₂ t₁ t₂ hphase hbusy hdone hfault herr hdg hmoves hseen hdraws h₁ h₂
  have hl₁ := step_next_legal h₁
  have hl₂ := step_next_legal h₂
  by_cases hreads : s₁.Reads
  · obtain ⟨rest, hread | ⟨n, hread⟩⟩ := hreads
    · rw [step_readStatus hl₁ hread] at h₁
      rw [step_readStatus hl₂ (hmoves ▸ hread)] at h₂
      exact hostReadStatus_seen_congr h₁ h₂ hphase hbusy hdone hfault herr
    · rw [step_readDigest hl₁ hread] at h₁
      rw [step_readDigest hl₂ (hmoves ▸ hread)] at h₂
      exact hostReadDigest_seen_congr h₁ h₂ hdone hdg hdraws
  · have hreads₂ : ¬ s₂.Reads := by rwa [State.Reads, ← hmoves]
    rw [step_keeps_seen hreads h₁, step_keeps_seen hreads₂ h₂, hseen]

end Sys2Proof.Machine
end

section
/-! PROOFS. Runs: the 115 micro-operations of a block (R161, R188), all the blocks of a message (R162),
the whole run from `START` to `HALT` (R204), and the run that overflows (R210). -/

namespace Sys2Proof.Machine

open Sys2Proof.Safety

/-! ### The run of `ROUND 0` to `ROUND 63` -/

/-- `s` with `n` of the 64 rounds done, and `UOP` moved on by `n`. -/
def State.afterRounds (s : State) (n : Nat) : State :=
  { s with wv := rounds s.wv s.W n, uop := BitVec.ofNat 10 (0x140 + n) }

theorem step_afterRounds {s : State} (hmoves : s.moves = []) {n : Nat} (hn : n < 64) :
    step (s.afterRounds n) = .next (s.afterRounds (n + 1)) := by
  have hdec : decodeMicro (s.afterRounds n).uop = .ok (.round (BitVec.ofNat 6 n)) :=
    decodeMicro_round hn
  rw [step_of_decodeMicro hdec hmoves, exec, execRound_of_lt hn]
  simp only [State.afterRounds, rounds, dif_pos hn]

theorem run_afterRounds {s : State} (hmoves : s.moves = []) {n : Nat} (hn : n ≤ 64) :
    Host.Core.run Sys2Proof.core n (s.afterRounds 0) = .next (s.afterRounds n) := by
  induction n with
  | zero => exact run_zero _
  | succ n ih =>
    rw [run_add n 1 (ih (by omega)), run_succ 0 (step_afterRounds hmoves (by omega))]
    exact run_zero _

/-! ### A block (R161) -/

/-- `INITWV` leaves the state from which the 64 rounds start. -/
theorem step_initwv {s : State} (huop : s.uop = 0x100) (hmoves : s.moves = []) :
    step s = .next (State.afterRounds { s with wv := WorkingState.ofVector s.H } 0) := by
  rw [step_of_decodeMicro (i := .initwv) (by rw [huop]; rfl) hmoves]
  rfl

/-- `s` with a block done: the registers of the datapath as given, `BLK` and `UOP` as `ADDBACK` writes
them. -/
def State.blockDone (s : State) (wv : WorkingState) (W : Vector Word 64) (H : Vector Word 8) : State :=
  { s with
    wv := wv
    W := W
    H := H
    blk := s.blk + 1
    uop := if s.blk.toNat + 1 < s.nblk.toNat then 0x080 else 0x1C0 }

/-- Stated for every `n`: for a literal `n` the kernel would carry out the rounds to compare states. -/
theorem step_addback_afterRounds {s : State} {n : Nat} (huop : (s.afterRounds n).uop = 0x180)
    (hmoves : s.moves = []) :
    step (s.afterRounds n) =
      .next (s.blockDone (rounds s.wv s.W n) s.W (addBack s.H (rounds s.wv s.W n))) := by
  rw [step_of_decodeMicro (s := s.afterRounds n) (i := .addback) (by rw [huop]; rfl) hmoves]
  exact execAddback_eq _

theorem State.blockDone_frame (s : State) (wv : WorkingState) (W : Vector Word 64)
    (H : Vector Word 8) :
    s.blockDone wv W H = { s with
      wv := (s.blockDone wv W H).wv
      W := (s.blockDone wv W H).W
      H := (s.blockDone wv W H).H
      blk := (s.blockDone wv W H).blk
      uop := (s.blockDone wv W H).uop } := rfl

/-- From `INITWV` on, with the schedule `w` in `W`: the working variables, the rounds and the sum. -/
theorem run_compress {s : State} (hmoves : s.moves = []) (w : Vector Word 64) :
    Host.Core.run Sys2Proof.core 66 { s with W := w, uop := 0x100 } =
      .next (s.blockDone (rounds (WorkingState.ofVector s.H) w 64) w (compress s.H w)) := by
  have hinit := step_initwv (s := { s with W := w, uop := 0x100 }) rfl hmoves
  have hrounds := run_afterRounds
    (s := { s with W := w, uop := 0x100, wv := WorkingState.ofVector s.H }) hmoves (le_refl 64)
  have hadd := step_addback_afterRounds
    (s := { s with W := w, uop := 0x100, wv := WorkingState.ofVector s.H }) (n := 64) rfl hmoves
  calc Host.Core.run Sys2Proof.core 66 { s with W := w, uop := 0x100 }
      = Host.Core.run Sys2Proof.core 65 _ := run_succ 65 hinit
    _ = Host.Core.run Sys2Proof.core 1 _ := run_add 64 1 hrounds
    _ = Host.Core.run Sys2Proof.core 0 _ := run_succ 0 hadd
    _ = _ := run_zero _

theorem run_block {s : State} {block : List Word} (hmoves : s.moves = []) (huop : s.uop = 0x080)
    (hblk : s.blk.toNat < s.nblk.toNat) (hplen : s.plen.toNat = 64 * s.nblk.toNat)
    (hread : Memory.readWords s.pm (64 * s.blk.toNat) 16 = some block) :
    Host.Core.run Sys2Proof.core 115 s =
      .next (s.blockDone (rounds (WorkingState.ofVector s.H) (schedule block) 64) (schedule block)
        (compress s.H (schedule block))) :=
  calc Host.Core.run Sys2Proof.core 115 s
      = Host.Core.run Sys2Proof.core 66 _ :=
        run_add 49 66 (expandLeavesSchedule s block hmoves huop hblk hplen hread)
    _ = _ := run_compress hmoves (schedule block)

/-- Settles O33: 49 steps leave the schedule (O29), and 66 compress it. -/
theorem blockCompresses : Obligations.BlockCompresses := by
  intro s block hmoves huop hblk hplen hread
  exact ⟨_, run_block hmoves huop hblk hplen hread, rfl, toNat_blk_add_one hblk, rfl,
    State.blockDone_frame ..⟩

/-! ### All the blocks of a message (R162) -/

/-- A block of the padded message is read from where the padded message stands (R71). -/
theorem readWords_of_holds {m : Memory} {padded : List Byte} {i : Nat} (hpm : Holds m 0 padded)
    (hi : 64 * i + 64 ≤ padded.length) :
    Memory.readWords m (64 * i) 16 = some (blockWords padded i) := by
  have hread : Memory.readBytes m (64 * i) 64 = some ((padded.drop (64 * i)).take 64) := by
    refine Memory.readBytes_eq_some.2 ⟨by rw [List.length_take, List.length_drop]; omega, ?_⟩
    intro j hj
    have hbyte := hpm (64 * i + j) (by omega)
    rw [Nat.zero_add] at hbyte
    rwa [List.getElem?_take_of_lt hj, List.getElem?_drop]
  have hlen : 4 * 16 ≤ (padded.drop (64 * i)).length := by rw [List.length_drop]; omega
  have htake : 4 * 16 ≤ ((padded.drop (64 * i)).take 64).length := by rw [List.length_take]; omega
  simp only [Memory.readWords, hread, blockWords, wordsOfBytes_eq 16 _ hlen, Option.getD_some]
  rw [wordsOfBytes_eq 16 _ htake]
  simp only [List.getElem_take]

/-- `s` with the first `n` blocks of the padded message of `M` compressed: the working variables and the
schedule words are those the last block left. -/
def State.blocksDone (s : State) (M : List Byte) (n : Nat) (wv : WorkingState) (W : Vector Word 64) :
    State :=
  { s with
    wv := wv
    W := W
    H := chain (padBytes M) n
    blk := BitVec.ofNat Config.blkw n
    uop := if n < s.nblk.toNat then 0x080 else 0x1C0 }

theorem State.blocksDone_blk_toNat {s : State} {n : Nat} (h : n ≤ s.nblk.toNat) (M : List Byte)
    (wv : WorkingState) (W : Vector Word 64) : (s.blocksDone M n wv W).blk.toNat = n :=
  Nat.mod_eq_of_lt (h.trans_lt s.nblk.isLt)

theorem State.blockDone_blocksDone {s : State} {n : Nat} (h : n < s.nblk.toNat) (M : List Byte)
    (wv wv' : WorkingState) (W W' : Vector Word 64) :
    (s.blocksDone M n wv W).blockDone wv' W' (chain (padBytes M) (n + 1)) =
      s.blocksDone M (n + 1) wv' W' := by
  have hblk := State.blocksDone_blk_toNat h.le M wv W
  rw [State.blockDone, hblk, State.blocksDone, State.blocksDone, BitVec.ofNat_add]
  rfl

/-- The 115 micro-operations of block `n`. -/
theorem run_blocksDone_succ {s : State} {M : List Byte} {n : Nat} (hmoves : s.moves = [])
    (hpm : Holds s.pm 0 (padBytes M)) (hnblk : s.nblk.toNat = blockCount M.length)
    (hplen : s.plen.toNat = 64 * s.nblk.toNat) (hn : n < s.nblk.toNat) (wv : WorkingState)
    (W : Vector Word 64) :
    ∃ wv' W', Host.Core.run Sys2Proof.core 115 (s.blocksDone M n wv W) =
      .next (s.blocksDone M (n + 1) wv' W') := by
  have hblk := State.blocksDone_blk_toNat hn.le M wv W
  have hread := readWords_of_holds hpm (block_le_padBytes_length (hnblk ▸ hn))
  rw [← hblk] at hread
  have hrun := run_block (s := s.blocksDone M n wv W) hmoves (if_pos hn) (by rwa [hblk]) hplen hread
  rw [hblk] at hrun
  exact ⟨_, _, hrun.trans (congrArg _ (State.blockDone_blocksDone hn M wv _ W _))⟩

theorem run_blocksDone {s : State} {M : List Byte} (hmoves : s.moves = [])
    (hpm : Holds s.pm 0 (padBytes M)) (hnblk : s.nblk.toNat = blockCount M.length)
    (hplen : s.plen.toNat = 64 * s.nblk.toNat) (wv : WorkingState) (W : Vector Word 64) {n : Nat}
    (hn : n ≤ s.nblk.toNat) :
    ∃ wv' W', Host.Core.run Sys2Proof.core (115 * n) (s.blocksDone M 0 wv W) =
      .next (s.blocksDone M n wv' W') := by
  induction n with
  | zero => exact ⟨wv, W, run_zero _⟩
  | succ n ih =>
    obtain ⟨wv₁, W₁, hrun⟩ := ih (by omega)
    obtain ⟨wv₂, W₂, hblock⟩ := run_blocksDone_succ hmoves hpm hnblk hplen (Nat.lt_of_succ_le hn) wv₁ W₁
    exact ⟨wv₂, W₂, (run_add (115 * n) 115 hrun).trans hblock⟩

/-! ### The run from `START` on (R204) -/

/-- What an accepted `START` leaves. -/
def State.started (s : State) (len : BitVec Config.lenw) : State :=
  { s with
    mlen := len, H := IV, blk := 0, err := .noError, uop := 0x040, hazard := false, moves := [] }

@[simp] theorem State.started_uop (s : State) (len : BitVec Config.lenw) :
    (s.started len).uop = 0x040 := rfl

theorem step_started {s : State} {len : BitVec Config.lenw} (huop : s.uop = 0x000)
    (hmoves : s.moves = [command 0b01 len]) : step s = .next (s.started len) := by
  rw [step_command (i := .start len) (by rw [huop]; rfl) hmoves rfl]
  exact execStart_of_wait (s := { s with moves := [] }) huop len

/-- `PAD` leaves the state in which no block has been done yet. -/
theorem step_pad {s : State} {M : List Byte} (huop : s.uop = 0x040) (hmoves : s.moves = [])
    (hfits : 8 * M.length ≤ 2 ^ 64 - 1) (hlen : s.mlen.toNat = M.length) (hmsg : Holds s.msg 0 M)
    (hH : s.H = IV) (hblk : s.blk = 0) :
    step s = .next ((s.afterPad M).blocksDone M 0 s.wv s.W) := by
  have hfirst : (s.afterPad M).blocksDone M 0 s.wv s.W = s.afterPad M := by
    rw [State.blocksDone, if_pos (Nat.succ_le_iff.1 (afterPad_nblk_pos s hfits)), chain, ← hH,
      show BitVec.ofNat Config.blkw 0 = s.blk from hblk.symm]
    rfl
  rw [step_of_decodeMicro (i := .pad) (by rw [huop]; rfl) hmoves, hfirst]
  exact execPad_of_holds hfits hlen hmsg

theorem step_digest {s : State} (huop : s.uop = 0x1C0) (hmoves : s.moves = [])
    (hstable : s.hazard = false) :
    step s = .next { s with dg := Memory.writeBytes s.dg 0 (digestBytes s.H), uop := 0x200 } := by
  rw [step_of_decodeMicro (i := .digest) (by rw [huop]; rfl) hmoves]
  exact execDigest_of_stable hstable

/-- `s` at the end of the run of `M`. -/
def State.hashed (s : State) (M : List Byte) (wv : WorkingState) (W : Vector Word 64) : State :=
  { (s.afterPad M).blocksDone M (blockCount M.length) wv W with
    dg := Memory.writeBytes s.dg 0 (hashOf M)
    uop := 0x200 }

/-- From `PAD` on: the padding, the blocks, the digest (R188). -/
theorem run_hashed {s : State} {M : List Byte} (huop : s.uop = 0x040) (hmoves : s.moves = [])
    (hfits : 8 * M.length ≤ 2 ^ 64 - 1) (hlen : s.mlen.toNat = M.length) (hmsg : Holds s.msg 0 M)
    (hH : s.H = IV) (hblk : s.blk = 0) (hstable : s.hazard = false) :
    ∃ wv W, Host.Core.run Sys2Proof.core (2 + 115 * blockCount M.length) s =
      .next (s.hashed M wv W) := by
  have hnblk : (s.afterPad M).nblk.toNat = blockCount M.length := afterPad_nblk_toNat s hfits
  have hpad := step_pad huop hmoves hfits hlen hmsg hH hblk
  obtain ⟨wv, W, hblocks⟩ := run_blocksDone (s := s.afterPad M) hmoves (holds_afterPad_pm s M) hnblk
    (afterPad_plen_eq s hfits) s.wv s.W hnblk.ge
  have hlast : ((s.afterPad M).blocksDone M (blockCount M.length) wv W).uop = 0x1C0 :=
    if_neg (by rw [hnblk]; exact lt_irrefl _)
  have hdigest := step_digest hlast hmoves hstable
  refine ⟨wv, W, ?_⟩
  calc Host.Core.run Sys2Proof.core (2 + 115 * blockCount M.length) s
      = Host.Core.run Sys2Proof.core (115 * blockCount M.length + 1 + 1) s := by
        rw [Nat.add_comm]
    _ = Host.Core.run Sys2Proof.core (115 * blockCount M.length + 1) _ := run_succ _ hpad
    _ = Host.Core.run Sys2Proof.core 1 _ := run_add _ 1 hblocks
    _ = Host.Core.run Sys2Proof.core 0 _ := run_succ 0 hdigest
    _ = _ := run_zero _

theorem run_message {s : State} {M : List Byte} (huop : s.uop = 0x000)
    (hmoves : s.moves = [command 0b01 (BitVec.ofNat Config.lenw M.length)])
    (hfits : 8 * M.length ≤ 2 ^ 64 - 1) (hmsg : Holds s.msg 0 M) :
    ∃ wv W, Host.Core.run Sys2Proof.core (1 + (2 + 115 * blockCount M.length)) s =
      .next ((s.started (BitVec.ofNat Config.lenw M.length)).hashed M wv W) := by
  have hlen : (BitVec.ofNat Config.lenw M.length).toNat = M.length :=
    Nat.mod_eq_of_lt (show M.length < 2 ^ 64 by omega)
  obtain ⟨wv, W, hrun⟩ := run_hashed (s := s.started (BitVec.ofNat Config.lenw M.length)) rfl rfl hfits
    hlen hmsg rfl rfl rfl
  refine ⟨wv, W, ?_⟩
  rw [Nat.add_comm]
  exact (run_succ _ (step_started huop hmoves)).trans hrun

theorem State.hashed_dg (s : State) (M : List Byte) (wv : WorkingState) (W : Vector Word 64) :
    (s.hashed M wv W).dg = Memory.writeBytes s.dg 0 (hashOf M) := by
  rw [State.hashed]

/-- The digest is read back whole. -/
theorem readBytes_hashed_dg (s : State) (M : List Byte) (wv : WorkingState) (W : Vector Word 64) :
    Memory.readBytes (s.hashed M wv W).dg 0 32 = some (hashOf M) := by
  rw [State.hashed_dg, ← digestBytes_length (chain (padBytes M) (blockCount M.length))]
  exact Memory.readBytes_writeBytes _ _ _

/-- Settles O54: the run leaves `State.hashed`, and its fields are what is claimed. -/
theorem runComputesHash : Obligations.RunComputesHash := by
  intro s M huop hmoves hfits hmsg
  obtain ⟨wv, W, hrun⟩ := run_message huop hmoves hfits hmsg
  rw [blockCount_eq] at hrun
  exact ⟨_, hrun, rfl, State.done_of_halt rfl, rfl, readBytes_hashed_dg _ M wv W, rfl, rfl, rfl⟩

/-- Settles O58: `CLEAR` writes constants into all but what the states agree on; and both runs read the
same digest, that of the message. -/
theorem nothingPersists : Obligations.NothingPersists := by
  refine ⟨fun s t hmsg hmoves hseen hdraws => ?_, ?_⟩
  · simp only [exec, execClear, State.toReset, hmsg, hmoves, hseen, hdraws]
  · intro s₁ s₂ M huop₁ huop₂ hmoves₁ hmoves₂ hfits hmsg₁ hmsg₂
    obtain ⟨t₁, hrun₁, hend₁, -, herr₁, hdg₁, -⟩ := runComputesHash s₁ M huop₁ hmoves₁ hfits hmsg₁
    obtain ⟨t₂, hrun₂, hend₂, -, herr₂, hdg₂, -⟩ :=
      runComputesHash s₂ M huop₂ (hmoves₂.trans hmoves₁) hfits hmsg₂
    refine ⟨_, t₁, t₂, hrun₁, hrun₂, hend₁, hend₂, herr₁.trans herr₂.symm, fun n hn => ?_⟩
    have hread₁ := (Memory.readBytes_eq_some.1 hdg₁).2 n hn
    have hread₂ := (Memory.readBytes_eq_some.1 hdg₂).2 n hn
    rw [← Nat.zero_add n, hread₁, hread₂]

/-! ### The run that overflows (R210, R213, R216) -/

/-- In Fault, with no move of the host, the machine stays as it is. -/
theorem run_fhalt {s : State} (huop : s.uop = 0x240) (hmoves : s.moves = []) (n : Nat) :
    Host.Core.run Sys2Proof.core n s = .next s := by
  have hdec : decodeMicro s.uop = .ok .fhalt := by
    rw [huop]
    rfl
  have hstay : step s = .next s := by
    rw [step_of_decodeMicro hdec hmoves, exec_at_rest (.inr huop) hdec]
  induction n with
  | zero => exact run_zero s
  | succ n ih => exact (run_succ n hstay).trans ih

/-- Settles O55: `START`, the raising `PAD`, and then `FHALT` for ever. -/
theorem overflowRunFails : Obligations.OverflowRunFails := by
  intro s len n huop hmoves hover
  have hpad : step (s.started len) = .next (s.started len).raiseLengthOverflow :=
    (step_of_decodeMicro (i := .pad) (by rw [State.started_uop]; rfl) rfl).trans
      (execPad_of_overflow hover)
  have hrest := run_fhalt (s := (s.started len).raiseLengthOverflow) rfl rfl n
  refine ⟨(s.started len).raiseLengthOverflow, ?_, rfl, rfl,
    (State.fault_and_not_done_of_fhalt rfl).2, rfl, rfl, rfl⟩
  rw [Nat.add_comm]
  exact ((run_succ _ (step_started huop hmoves)).trans (run_succ _ hpad)).trans hrest

end Sys2Proof.Machine
end

section
/-! PROOFS. The invariant of the sequencer (R183 (a), (b), R32, R40): phase by phase what it says, that
every step keeps it, and that under it only the host can make the machine stop. -/

namespace Sys2Proof.Machine

open Sys2Proof.Safety

/-! ### The phase of a state -/

theorem State.phase_of_op {s : State} {op : BitVec 4} {p : Option Phase} (h : opOf s.uop = op)
    (hp : phaseOf op = p) : s.phase = p := by
  rw [State.phase, h, hp]

@[simp] theorem State.phase_goto (s : State) (op : BitVec 4) (idx : BitVec 6) :
    (s.goto op idx).phase = phaseOf op :=
  State.phase_of_op (opOf_microWord op idx) rfl

@[simp] theorem State.done_goto (s : State) (op : BitVec 4) (idx : BitVec 6) :
    (s.goto op idx).done = decide (op = Op.halt) := by
  rw [State.done, State.goto_uop, opOf_microWord]

/-- `done` = 1 in phase Done only. -/
theorem State.phase_of_done {s : State} (h : s.done = true) : s.phase = some .done :=
  State.phase_of_op (of_decide_eq_true h) rfl

/-- The word in `UOP`, from what it decodes to. -/
theorem uop_of_decodeMicro {u : BitVec 10} {i : Instr} {op : BitVec 4} {idx : BitVec 6}
    (hdec : decodeMicro u = .ok i) (henc : encode i = .micro (microWord op idx)) :
    u = microWord op idx :=
  Code.micro.inj ((decodeMicro_ok hdec).1.symm.trans henc)

theorem opOf_of_decodeMicro {u : BitVec 10} {i : Instr} {op : BitVec 4} {idx : BitVec 6}
    (hdec : decodeMicro u = .ok i) (henc : encode i = .micro (microWord op idx)) : opOf u = op := by
  rw [uop_of_decodeMicro hdec henc, opOf_microWord]

/-! ### The invariant, phase by phase -/

/-- The part of the invariant that is the same in every phase. -/
structure Canonical (s : State) : Prop where
  msg_wf : Memory.wf s.msg
  pm_wf : Memory.wf s.pm
  dg_wf : Memory.wf s.dg
  plen_eq : s.plen.toNat = 64 * s.nblk.toNat
  nblk_pos : 1 ≤ s.nblk.toNat

/-- It depends on the byte spaces and on `PLEN` and `NBLK` alone. -/
theorem Canonical.congr {s t : State} (hs : Canonical s) (hmsg : t.msg = s.msg) (hpm : t.pm = s.pm)
    (hdg : t.dg = s.dg) (hplen : t.plen = s.plen) (hnblk : t.nblk = s.nblk) : Canonical t := by
  obtain ⟨msg_wf, pm_wf, dg_wf, plen_eq, nblk_pos⟩ := hs
  exact ⟨hmsg ▸ msg_wf, hpm ▸ pm_wf, hdg ▸ dg_wf, by rw [hplen, hnblk, plen_eq], hnblk ▸ nblk_pos⟩

/-- The part of the invariant that a phase has for itself. -/
def PhaseInv (s : State) : Phase → Prop
  | .init => s.blk = 0 ∧ s.err = .noError ∧ s.hazard = false
  | .padding => s.blk = 0 ∧ s.err = .noError
  | .perBlockProcessing => s.blk.toNat < s.nblk.toNat ∧ s.err = .noError ∧
      ∀ a, a < s.plen.toNat → (Memory.read s.pm a).isSome
  | .done => s.blk = s.nblk ∧ s.err = .noError ∧
      (s.done = true → ∀ a, a < 32 → (Memory.read s.dg a).isSome)
  | .fault => s.err = .lengthOverflow

/-- Where the phase is known, the invariant is these three. -/
theorem inv_iff {s : State} {p : Phase} (hphase : s.phase = some p) :
    Inv s ↔ LegalUop s.uop ∧ Canonical s ∧ PhaseInv s p := by
  have hdone : p ≠ .done → s.done = false := fun hp =>
    Bool.eq_false_iff.2 fun h => hp (Option.some_inj.1 (hphase.symm.trans (State.phase_of_done h)))
  have herr : s.err = .noError ↔ ¬ s.err = .lengthOverflow := by
    cases s.err <;> decide
  constructor
  · intro h
    refine ⟨h.legal, ⟨h.msg_wf, h.pm_wf, h.dg_wf, h.plen_eq, h.nblk_pos⟩, ?_⟩
    have herr_iff := h.err_iff
    cases p <;> simp only [hphase, PhaseInv, herr] at herr_iff ⊢
    case init => exact ⟨h.blk_before (.inl hphase), by simpa using herr_iff, h.hazard_init hphase⟩
    case padding => exact ⟨h.blk_before (.inr hphase), by simpa using herr_iff⟩
    case perBlockProcessing =>
      exact ⟨h.blk_lt hphase, by simpa using herr_iff, h.pm_written hphase⟩
    case done => exact ⟨h.blk_eq hphase, by simpa using herr_iff, h.dg_written⟩
    case fault => simpa using herr_iff
  · rintro ⟨hlegal, ⟨hmsg, hpm, hdg, hplen, hnblk⟩, hp⟩
    -- Each clause is one of the phase's own, or its premise names another phase.
    cases p with
    | init =>
      obtain ⟨hblk, hno, hmark⟩ := hp
      constructor <;> simp_all
    | padding =>
      obtain ⟨hblk, hno⟩ := hp
      constructor <;> simp_all
    | perBlockProcessing =>
      obtain ⟨hblk, hno, hwritten⟩ := hp
      constructor <;> simp_all
    | done =>
      obtain ⟨hblk, hno, hwritten⟩ := hp
      constructor <;> simp_all
    | fault =>
      change s.err = .lengthOverflow at hp
      constructor <;> simp_all

/-- The word of the next `SCHED`, or that of `INITWV`. -/
theorem isReserved_after_sched {k : BitVec 6} (h16 : 16 ≤ k.toNat) :
    isReserved (microWord (if k.toNat < 63 then Op.sched else Op.initwv)
      (if k.toNat < 63 then k + 1 else 0)) = false := by
  split
  · exact isReserved_sched (by bv_omega)
  · rfl

/-- The word of the next `ROUND`, or that of `ADDBACK`. -/
theorem isReserved_after_round (k : BitVec 6) :
    isReserved (microWord (if k.toNat < 63 then Op.round else Op.addback)
      (if k.toNat < 63 then k + 1 else 0)) = false := by
  split
  · exact isReserved_round _
  · rfl

/-! ### A micro-operation keeps the invariant -/

/-- The form in which each micro-operation's next state is shown to meet the invariant. -/
theorem inv_goto {s : State} {op : BitVec 4} {idx : BitVec 6} {p : Phase} (hop : phaseOf op = some p)
    (hidx : isReserved (microWord op idx) = false) (hc : Canonical s)
    (hp : PhaseInv (s.goto op idx) p) : Inv (s.goto op idx) :=
  (inv_iff ((State.phase_goto ..).trans hop)).2
    ⟨legalUop_iff.2 hidx, hc.congr rfl rfl rfl rfl rfl, hp⟩

/-- A micro-operation of a block that stays in the block changes the datapath and `UOP` only. -/
theorem inv_goto_perBlock {s : State} (hs : Inv s) (hphase : s.phase = some .perBlockProcessing)
    {op : BitVec 4} {idx : BitVec 6} (hop : phaseOf op = some .perBlockProcessing)
    (hidx : isReserved (microWord op idx) = false) (wv : WorkingState) (W : Vector Word 64) :
    Inv (State.goto { s with wv := wv, W := W } op idx) := by
  obtain ⟨-, hc, hp⟩ := (inv_iff hphase).1 hs
  exact inv_goto hop hidx (hc.congr rfl rfl rfl rfl rfl) hp

theorem inv_raiseLengthOverflow {s : State} (hc : Canonical s) : Inv s.raiseLengthOverflow :=
  inv_goto (s := { s with err := .lengthOverflow }) rfl rfl (hc.congr rfl rfl rfl rfl rfl) rfl

/-- `PAD` writes every byte below `PLEN`, and at least one block. -/
theorem inv_afterPad {s : State} {M : List Byte} (hfits : 8 * M.length ≤ 2 ^ 64 - 1)
    (hc : Canonical s) (hblk : s.blk = 0) (herr : s.err = .noError) : Inv (s.afterPad M) := by
  have hpos := afterPad_nblk_pos s hfits
  have hzero : s.blk.toNat = 0 := by
    rw [hblk]
    rfl
  refine inv_goto rfl rfl ⟨hc.msg_wf, Memory.writeBytes_wf 0 _ List.Pairwise.nil, hc.dg_wf,
    afterPad_plen_eq s hfits, hpos⟩ ⟨hzero.trans_lt hpos, herr, fun a ha => ?_⟩
  have hlen : a < (padBytes M).length := by
    rw [padBytes_length, ← afterPad_plen_toNat s hfits]
    exact ha
  have hread := read_afterPad_pm s M a
  rw [List.getElem?_eq_getElem hlen] at hread
  exact Option.isSome_of_eq_some hread

theorem execPad_keeps_inv {s t : State} (hs : Inv s) (hphase : s.phase = some .padding)
    (h : execPad s = .next t) : Inv t := by
  obtain ⟨-, hc, hblk, herr⟩ := (inv_iff hphase).1 hs
  by_cases hfits : 8 * s.mlen.toNat ≤ 2 ^ 64 - 1
  · obtain ⟨M, hlen, -, rfl⟩ := execPad_next_of_fits hfits h
    exact inv_afterPad (hlen ▸ hfits) hc hblk herr
  · cases (execPad_of_overflow (Nat.lt_of_not_le hfits)).symm.trans h
    exact inv_raiseLengthOverflow hc

/-- R158: the next block, or after the last one Done. -/
theorem execAddback_keeps_inv {s t : State} (hs : Inv s)
    (hphase : s.phase = some .perBlockProcessing) (h : execAddback s = .next t) : Inv t := by
  obtain ⟨-, hc, hblk, herr, hpm⟩ := (inv_iff hphase).1 hs
  have hsucc := toNat_blk_add_one hblk
  rw [execAddback_eq] at h
  by_cases hlt : s.blk.toNat + 1 < s.nblk.toNat
  · rw [if_pos hlt] at h
    cases h
    exact inv_goto (s := { s with H := addBack s.H s.wv, blk := s.blk + 1 }) (op := Op.ldblk) (idx := 0)
      rfl rfl (hc.congr rfl rfl rfl rfl rfl) ⟨hsucc.trans_lt hlt, herr, hpm⟩
  · rw [if_neg hlt] at h
    cases h
    have hlast : s.blk + 1 = s.nblk := BitVec.eq_of_toNat_eq (by omega)
    exact inv_goto (s := { s with H := addBack s.H s.wv, blk := s.blk + 1 }) (op := Op.digest) (idx := 0)
      rfl rfl (hc.congr rfl rfl rfl rfl rfl)
      ⟨hlast, herr, fun hdone => absurd hdone (by rw [State.done_goto]; decide)⟩

/-- The 32 bytes of a digest make every byte of `DG` a written one. -/
theorem isSome_read_writeBytes (dg : Memory) {bs : List Byte} (hlen : bs.length = 32) {a : Nat}
    (ha : a < 32) : (Memory.read (Memory.writeBytes dg 0 bs) a).isSome := by
  rw [Memory.read_writeBytes, if_pos (by omega), Nat.sub_zero, List.getElem?_eq_getElem (by omega)]
  rfl

/-- What `DIGEST` leaves, whichever 32 bytes it writes. -/
theorem inv_digestWritten {s : State} (hs : Inv s) (hphase : s.phase = some .done) {bs : List Byte}
    (hlen : bs.length = 32) (draws : Nat) :
    Inv (State.goto { s with dg := Memory.writeBytes s.dg 0 bs, draws := draws } Op.halt 0) := by
  obtain ⟨-, hc, hblk, herr, -⟩ := (inv_iff hphase).1 hs
  have hdg : Memory.wf (Memory.writeBytes s.dg 0 bs) := Memory.writeBytes_wf 0 bs hc.dg_wf
  exact inv_goto rfl rfl ⟨hc.msg_wf, hc.pm_wf, hdg, hc.plen_eq, hc.nblk_pos⟩
    ⟨hblk, herr, fun _ _ => isSome_read_writeBytes s.dg hlen⟩

theorem execDigest_keeps_inv {s t : State} (hs : Inv s) (hphase : s.phase = some .done)
    (h : execDigest s = .next t) : Inv t := by
  obtain ⟨bs, draws, hlen, -, rfl⟩ := execDigest_written h
  exact inv_digestWritten hs hphase hlen draws

/-- The sequencer keeps the invariant, each micro-operation by the phase it stands in. -/
theorem exec_keeps_inv {s t : State} {i : Instr} (hs : Inv s) (hdec : decodeMicro s.uop = .ok i)
    (h : exec i s = .next t) : Inv t := by
  cases i with
  | wait =>
    obtain ⟨-, hc, hp⟩ := (inv_iff (State.phase_of_op (opOf_of_decodeMicro hdec rfl) rfl)).1 hs
    cases h
    exact inv_goto rfl rfl hc hp
  | pad => exact execPad_keeps_inv hs (State.phase_of_op (opOf_of_decodeMicro hdec rfl) rfl) h
  | ldblk =>
    obtain ⟨-, block, -, rfl⟩ := execLdblk_next h
    exact inv_goto_perBlock hs (State.phase_of_op (opOf_of_decodeMicro hdec rfl) rfl) rfl rfl s.wv _
  | sched k =>
    obtain ⟨h16, rfl⟩ := execSched_next h
    exact inv_goto_perBlock hs (State.phase_of_op (opOf_of_decodeMicro hdec rfl) rfl) (by split <;> rfl)
      (isReserved_after_sched h16) s.wv _
  | initwv =>
    cases execInitwv_next h
    exact inv_goto_perBlock hs (State.phase_of_op (opOf_of_decodeMicro hdec rfl) rfl) rfl rfl _ s.W
  | round k =>
    cases execRound_next h
    exact inv_goto_perBlock hs (State.phase_of_op (opOf_of_decodeMicro hdec rfl) rfl) (by split <;> rfl)
      (isReserved_after_round k) _ s.W
  | addback => exact execAddback_keeps_inv hs (State.phase_of_op (opOf_of_decodeMicro hdec rfl) rfl) h
  | digest => exact execDigest_keeps_inv hs (State.phase_of_op (opOf_of_decodeMicro hdec rfl) rfl) h
  | halt =>
    cases (exec_at_rest (.inl (uop_of_decodeMicro hdec rfl)) hdec).symm.trans h
    exact hs
  | fhalt =>
    cases (exec_at_rest (.inr (uop_of_decodeMicro hdec rfl)) hdec).symm.trans h
    exact hs
  | start len => cases (decodeMicro_ok hdec).1
  | clear => cases (decodeMicro_ok hdec).1

/-! ### The host's moves keep the invariant -/

/-- The invariant says nothing of the host's side. -/
theorem inv_hostSide {s : State} (hs : Inv s) (moves : List HostMove) (seen : Option Observation)
    (draws : Nat) : Inv { s with moves := moves, seen := seen, draws := draws } :=
  ⟨hs.legal, hs.msg_wf, hs.pm_wf, hs.dg_wf, hs.plen_eq, hs.nblk_pos, hs.blk_before, hs.blk_lt, hs.blk_eq,
    hs.pm_written, hs.dg_written, hs.err_iff, hs.hazard_init⟩

theorem inv_toReset {s : State} (hmsg : Memory.wf s.msg) : Inv s.toReset := by
  obtain ⟨hphase, -⟩ := State.status_of_wait (s := s.toReset) rfl
  exact (inv_iff hphase).2 ⟨.inl rfl, ⟨hmsg, List.Pairwise.nil, List.Pairwise.nil, rfl, le_refl 1⟩,
    rfl, rfl, rfl⟩

/-- Settles O49: the reset state is what `CLEAR` makes of itself. -/
theorem invAtReset : Obligations.InvAtReset :=
  inv_toReset (s := State.reset) List.Pairwise.nil

theorem execStart_keeps_inv {s t : State} {len : BitVec Config.lenw} (hs : Inv s)
    (h : execStart len s = .next t) : Inv t := by
  rcases execStart_next h with ⟨hwait, rfl⟩ | ⟨-, rfl⟩
  · obtain ⟨hphase, -⟩ := State.status_of_wait hwait
    obtain ⟨-, hc, -⟩ := (inv_iff hphase).1 hs
    exact inv_goto rfl rfl (hc.congr rfl rfl rfl rfl rfl) ⟨rfl, rfl⟩
  · exact hs

/-- `DG` after a message write outside Init: each of its bytes is written where it was. -/
theorem isSome_read_writeDuringRun_dg {s : State} (a : Nat) {n : Nat} (hn : n < 32)
    (h : (Memory.read s.dg n).isSome) : (Memory.read (writeDuringRun s a).dg n).isSome := by
  cases hdone : s.done with
  | false => rwa [writeDuringRun_dg_of_not_done a hdone]
  | true =>
    rw [writeDuringRun_dg_of_done a hdone]
    exact isSome_read_writeBytes s.dg (State.freeBytes_length _ 32) hn

theorem writeDuringRun_dg_wf {s : State} (a : Nat) (h : Memory.wf s.dg) :
    Memory.wf (writeDuringRun s a).dg := by
  cases hdone : s.done with
  | false => rwa [writeDuringRun_dg_of_not_done a hdone]
  | true =>
    rw [writeDuringRun_dg_of_done a hdone]
    exact Memory.writeBytes_wf 0 _ h

/-- The mark it sets is no matter, since the phase is not Init. -/
theorem inv_writeDuringRun {s : State} (hs : Inv s) (hinit : s.phase ≠ some .init) (a : Nat) :
    Inv (writeDuringRun s a) :=
  ⟨hs.legal, Memory.write_wf a _ hs.msg_wf, hs.pm_wf, writeDuringRun_dg_wf a hs.dg_wf, hs.plen_eq,
    hs.nblk_pos, hs.blk_before, hs.blk_lt, hs.blk_eq, hs.pm_written,
    fun hdone n hn => isSome_read_writeDuringRun_dg a hn (hs.dg_written hdone n hn), hs.err_iff,
    fun hphase => absurd hphase hinit⟩

theorem hostWriteMessage_keeps_inv {s t : State} {a : Nat} {b : Byte} (hs : Inv s)
    (h : hostWriteMessage a b s = .next t) : Inv t := by
  obtain ⟨-, ⟨-, rfl⟩ | ⟨hinit, rfl⟩⟩ := hostWriteMessage_next h
  · exact ⟨hs.legal, Memory.write_wf a b hs.msg_wf, hs.pm_wf, hs.dg_wf, hs.plen_eq, hs.nblk_pos,
      hs.blk_before, hs.blk_lt, hs.blk_eq, hs.pm_written, hs.dg_written, hs.err_iff, hs.hazard_init⟩
  · exact inv_writeDuringRun hs hinit a

/-- Settles O50, case by case of what a step can be. -/
theorem stepKeepsInv : Obligations.StepKeepsInv := by
  intro s t hs h
  have htake : ∀ ms, Inv { s with moves := ms } := fun ms => inv_hostSide hs ms s.seen s.draws
  cases stepCase_of_next h with
  | micro i ms hdec ho => exact exec_keeps_inv (htake ms) hdec ho
  | start len ms ho => exact execStart_keeps_inv (htake ms) ho
  | clear m rest ms hmoves hclear ho =>
    cases ho
    exact inv_toReset hs.msg_wf
  | nothing ms ho =>
    cases ho
    exact htake ms
  | write a b rest hmoves ho => exact hostWriteMessage_keeps_inv (htake rest) ho
  | readStatus rest hmoves ho =>
    rw [hostReadStatus_frame ho]
    exact inv_hostSide hs _ _ _
  | readDigest n rest hmoves ho =>
    rw [hostReadDigest_frame ho]
    exact inv_hostSide hs _ _ _

/-! ### Which stops are left -/

/-- Where every byte of a block has been written, its words can be read. -/
theorem exists_readWords {m : Memory} {a n : Nat}
    (h : ∀ k, k < 4 * n → (Memory.read m (a + k)).isSome) : ∃ ws, Memory.readWords m a n = some ws := by
  refine ⟨_, readWords_of_read (B := fun k => (Memory.read m (a + k)).getD 0) fun k hk => ?_⟩
  obtain ⟨b, hb⟩ := Option.isSome_iff_exists.1 (h k hk)
  rw [hb, Option.getD_some]

theorem execPad_answers (s : State) :
    (∃ t, execPad s = .next t) ∨ (execPad s = .fault .unwrittenMessageByte ∧
      ∃ j, j < s.mlen.toNat ∧ Memory.read s.msg j = none) := by
  by_cases hfits : 8 * s.mlen.toNat ≤ 2 ^ 64 - 1
  · cases hread : Memory.readBytes s.msg 0 s.messageLength with
    | none =>
      obtain ⟨j, hj, hnone⟩ := Memory.readBytes_eq_none.1 hread
      rw [Nat.zero_add] at hnone
      exact .inr ⟨execPad_of_unwritten hfits hj hnone, j, hj, hnone⟩
    | some M =>
      have hlen : s.messageLength = M.length := (Memory.readBytes_eq_some.1 hread).1.symm
      have hmsg : Holds s.msg 0 M := readBytes_length_eq_some.1 (hlen ▸ hread)
      exact .inl ⟨_, execPad_of_holds (hlen ▸ hfits) hlen hmsg⟩
  · exact .inl ⟨_, execPad_of_overflow (Nat.lt_of_not_le hfits)⟩

/-- R58's assertion holds, and the block has been written. -/
theorem execLdblk_answers {s : State} (hs : Inv s) (hphase : s.phase = some .perBlockProcessing) :
    ∃ t, execLdblk s = .next t := by
  obtain ⟨-, hc, hblk, -, hpm⟩ := (inv_iff hphase).1 hs
  have hplen := hc.plen_eq
  obtain ⟨block, hread⟩ := exists_readWords (m := s.pm) (a := s.blockAddress) (n := 16)
    fun k hk => hpm _ (by unfold State.blockAddress; omega)
  exact ⟨_, execLdblk_of_readWords ((blockInRange_iff hplen).2 hblk) hread⟩

theorem execDigest_answers (s : State) : ∃ t, execDigest s = .next t := by
  cases hmark : s.hazard with
  | false => exact ⟨_, execDigest_of_stable hmark⟩
  | true => exact ⟨_, execDigest_of_hazard hmark⟩

/-- Under the invariant a micro-operation answers a next state, or is `PAD` at an unwritten byte. -/
theorem exec_answers {s : State} {i : Instr} (hs : Inv s) (hdec : decodeMicro s.uop = .ok i) :
    (∃ t, exec i s = .next t) ∨ (exec i s = .fault .unwrittenMessageByte ∧ s.uop = 0x040 ∧
      ∃ j, j < s.mlen.toNat ∧ Memory.read s.msg j = none) := by
  cases i with
  | pad =>
    exact (execPad_answers s).imp_right fun ⟨hfault, hnone⟩ =>
      ⟨hfault, uop_of_decodeMicro hdec rfl, hnone⟩
  | ldblk =>
    exact .inl (execLdblk_answers hs (State.phase_of_op (opOf_of_decodeMicro hdec rfl) rfl))
  | sched k =>
    have h16 : 16 ≤ k.toNat := of_decide_eq_true (decodeMicro_ok hdec).2
    exact .inl ⟨_, if_pos h16⟩
  | digest => exact .inl (execDigest_answers s)
  | wait | initwv | round k | addback | halt | fhalt | clear => exact .inl ⟨_, rfl⟩
  | start len => cases (decodeMicro_ok hdec).1

/-- Settles O51: a micro-operation by `exec_answers`, and of the host's moves only the message write
has a stop. -/
theorem invLeavesOnlyHostStops : Obligations.InvLeavesOnlyHostStops := by
  intro s hs
  have hl := isReserved_of_legalUop hs.legal
  cases stepCase_of_legal hl with
  | micro i ms hdec ho =>
    have hanswers := exec_answers (inv_hostSide hs ms s.seen s.draws) hdec
    rw [ho] at hanswers
    exact hanswers.imp_right .inl
  | start len ms ho =>
    rw [← ho]
    by_cases hwait : s.uop = 0x000
    · exact .inl ⟨_, execStart_of_wait (s := { s with moves := ms }) hwait len⟩
    · exact .inl ⟨_, execStart_of_ne_wait (s := { s with moves := ms }) hwait len⟩
  | clear m rest ms hmoves hclear ho => exact .inl ⟨_, ho.symm⟩
  | nothing ms ho => exact .inl ⟨_, ho.symm⟩
  | write a b rest hmoves ho =>
    by_cases hcap : a < Config.msgCap
    · rw [← ho, hostWriteMessage, if_pos hcap]
      split
      · exact .inl ⟨_, rfl⟩
      · exact .inl ⟨_, rfl⟩
    · have hout := Nat.le_of_not_lt hcap
      exact .inr (.inr ⟨ho.symm.trans (hostWriteMessage_outside hout), a, b, rest, hmoves, hout⟩)
  | readStatus rest hmoves ho =>
    obtain ⟨p, hphase⟩ := State.exists_phase_of_legalUop hs.legal
    exact .inl ⟨_, ho.symm.trans (hostReadStatus_of_phase (s := { s with moves := rest }) hphase)⟩
  | readDigest n rest hmoves ho =>
    rw [← ho, hostReadDigest]
    split
    · exact .inl ⟨_, rfl⟩
    · exact .inl ⟨_, rfl⟩

end Sys2Proof.Machine
end

section
/-! PROOFS. What each stage of a run has computed (R183 (c), (d), (e), R204): stage by stage what the
invariant of a run says, and that every step keeps it for the same message. -/

namespace Sys2Proof.Machine

open Sys2Proof.Safety

/-! ### The schedule as a fixed point of its recurrence (R146, R150) -/

/-- A word that the scheduler has reached does not change any more. -/
theorem expandWords_stable (w : Vector Word 64) {n m : Nat} (hnm : n ≤ m) {j : Nat} (hj : j < 64)
    (hlt : j < 16 + n) : (expandWords w m)[j] = (expandWords w n)[j] := by
  induction m, hnm using Nat.le_induction with
  | base => rfl
  | succ m hnm ih =>
    rw [← ih]
    simp only [expandWords]
    split
    · exact Vector.getElem_set_ne _ _ (by omega)
    · rfl

theorem expandWords_getElem (w : Vector Word 64) {t : Nat} (ht : t < 64) (h16 : 16 ≤ t) :
    (expandWords w 48)[t] = scheduleWord (expandWords w 48) t ht := by
  obtain ⟨n, rfl⟩ := Nat.exists_eq_add_of_le h16
  rw [expandWords_stable w (show n + 1 ≤ 48 by omega) ht (by omega)]
  have hword : (expandWords w (n + 1))[16 + n] = scheduleWord (expandWords w n) (16 + n) ht := by
    simp only [expandWords, dif_pos ht, Vector.getElem_set_self]
  rw [hword]
  exact scheduleWord_congr ht (by omega) fun j hj =>
    (expandWords_stable w (show n ≤ 48 by omega) (by omega) hj).symm

/-- The first sixteen words of a schedule are those of its block. -/
theorem schedule_getElem_low (w : Vector Word 64) {block : List Word} (hlen : block.length = 16)
    {j : Nat} (hj : j < 64) (h16 : j < 16) : (schedule block)[j] = (setLowWords w block)[j] := by
  rw [← expandWords_setLowWords w hlen, expandWords_stable _ (Nat.zero_le 48) hj (by omega), expandWords]

/-- `SCHED t` extends a schedule that is right below `t` by its word `t`. -/
theorem set_scheduleWord_getElem {w : Vector Word 64} {block : List Word} {t : Nat} (ht : t < 64)
    (h16 : 16 ≤ t) (hw : ∀ j (hj : j < 64), j < t → w[j] = (schedule block)[j]) {j : Nat} (hj : j < 64)
    (hlt : j < t + 1) : (w.set t (scheduleWord w t ht) ht)[j] = (schedule block)[j] := by
  by_cases heq : j = t
  · subst heq
    rw [Vector.getElem_set_self, schedule, expandWords_getElem _ ht h16]
    exact scheduleWord_congr ht h16 fun k hk => hw k (by omega) hk
  · rw [Vector.getElem_set_ne _ _ (Ne.symm heq)]
    exact hw j hj (by omega)

/-! ### The micro-operation in `UOP`, from its `op` -/

theorem idxOf_of_decodeMicro {u : BitVec 10} {i : Instr} {op : BitVec 4} {idx : BitVec 6}
    (hdec : decodeMicro u = .ok i) (henc : encode i = .micro (microWord op idx)) : idxOf u = idx := by
  rw [uop_of_decodeMicro hdec henc, idxOf_microWord]

theorem instr_of_sched {u : BitVec 10} {i : Instr} (hdec : decodeMicro u = .ok i)
    (hop : opOf u = Op.sched) : .sched (idxOf u) = i := by
  rw [decodeMicro_of_sched hop] at hdec
  split at hdec
  · exact Except.ok.inj hdec
  · cases hdec

theorem instr_of_round {u : BitVec 10} {i : Instr} (hdec : decodeMicro u = .ok i)
    (hop : opOf u = Op.round) : .round (idxOf u) = i :=
  Except.ok.inj ((decodeMicro_of_round hop).symm.trans hdec)

/-- Off the rows of `SCHED` and `ROUND` the `op` alone names the micro-operation. -/
theorem instr_of_plainMicro {u : BitVec 10} {i j : Instr} (hdec : decodeMicro u = .ok i)
    (hplain : plainMicro (opOf u) = some j) : j = i := by
  have hsched : opOf u ≠ Op.sched := fun hop => by rw [hop] at hplain; cases hplain
  have hround : opOf u ≠ Op.round := fun hop => by rw [hop] at hplain; cases hplain
  unfold decodeMicro at hdec
  rw [if_neg hsched, if_neg hround, hplain] at hdec
  split at hdec
  · exact Except.ok.inj hdec
  · cases hdec

/-! ### The invariant of a run, stage by stage -/

/-- The part of the invariant of a run that is the same at every stage. -/
structure RunOf (M : List Byte) (s : State) : Prop where
  fits : 8 * M.length ≤ 2 ^ 64 - 1
  mlen_eq : s.mlen.toNat = M.length
  nblk_eq : s.nblk.toNat = blockCount M.length
  pm_eq : Holds s.pm 0 (padBytes M)

theorem RunOf.congr {M : List Byte} {s t : State} (hs : RunOf M s) (hmlen : t.mlen = s.mlen)
    (hnblk : t.nblk = s.nblk) (hpm : t.pm = s.pm) : RunOf M t := by
  obtain ⟨fits, mlen_eq, nblk_eq, pm_eq⟩ := hs
  exact ⟨fits, hmlen ▸ mlen_eq, hnblk ▸ nblk_eq, hpm ▸ pm_eq⟩

/-- What has been computed of `M` where `UOP` holds this micro-operation. -/
def Stage (M : List Byte) (s : State) : Instr → Prop
  | .ldblk => s.H = chain (padBytes M) s.blk.toNat
  | .sched k => s.H = chain (padBytes M) s.blk.toNat ∧ ∀ j (h : j < 64), j < k.toNat →
      s.W[j] = (schedule (blockWords (padBytes M) s.blk.toNat))[j]
  | .initwv => s.H = chain (padBytes M) s.blk.toNat ∧
      s.W = schedule (blockWords (padBytes M) s.blk.toNat)
  | .round k => s.H = chain (padBytes M) s.blk.toNat ∧
      s.W = schedule (blockWords (padBytes M) s.blk.toNat) ∧
      s.wv = rounds (WorkingState.ofVector s.H) s.W k.toNat
  | .addback => s.H = chain (padBytes M) s.blk.toNat ∧
      s.W = schedule (blockWords (padBytes M) s.blk.toNat) ∧
      s.wv = rounds (WorkingState.ofVector s.H) s.W 64
  | .digest => s.H = chain (padBytes M) (blockCount M.length)
  | .halt => s.hazard = false → Holds s.dg 0 (hashOf M)
  | .wait | .pad | .fhalt | .start _ | .clear => True

theorem dataflow_iff {M : List Byte} {s : State} {i : Instr} (hdec : decodeMicro s.uop = .ok i) :
    Dataflow M s ↔ RunOf M s ∧ Stage M s i := by
  constructor
  · intro h
    refine ⟨⟨h.fits, h.mlen_eq, h.nblk_eq, h.pm_eq⟩, ?_⟩
    cases i with
    | ldblk => exact h.ldblk (opOf_of_decodeMicro hdec rfl)
    | sched k =>
      have hstage := h.sched (opOf_of_decodeMicro hdec rfl)
      rwa [idxOf_of_decodeMicro hdec rfl] at hstage
    | initwv => exact h.initwv (opOf_of_decodeMicro hdec rfl)
    | round k =>
      have hstage := h.round (opOf_of_decodeMicro hdec rfl)
      rwa [idxOf_of_decodeMicro hdec rfl] at hstage
    | addback => exact h.addback (opOf_of_decodeMicro hdec rfl)
    | digest => exact h.digest (opOf_of_decodeMicro hdec rfl)
    | halt => exact h.halt (opOf_of_decodeMicro hdec rfl)
    | wait | pad | fhalt | start len | clear => trivial
  · rintro ⟨⟨hfits, hmlen, hnblk, hpm⟩, hstage⟩
    refine ⟨hfits, hmlen, hnblk, hpm, fun hop => ?_, fun hop => ?_, fun hop => ?_, fun hop => ?_,
      fun hop => ?_, fun hop => ?_, fun hop => ?_⟩
    · cases instr_of_plainMicro hdec (by rw [hop]; rfl)
      exact hstage
    · cases instr_of_sched hdec hop
      exact hstage
    · cases instr_of_plainMicro hdec (by rw [hop]; rfl)
      exact hstage
    · cases instr_of_round hdec hop
      exact hstage
    · cases instr_of_plainMicro hdec (by rw [hop]; rfl)
      exact hstage
    · cases instr_of_plainMicro hdec (by rw [hop]; rfl)
      exact hstage
    · cases instr_of_plainMicro hdec (by rw [hop]; rfl)
      exact hstage

/-! ### A micro-operation carries a run to its next stage -/

/-- The form in which each next state is shown to be at the stage of its `UOP`. -/
theorem dataflow_goto {M : List Byte} {s : State} {op : BitVec 4} {idx : BitVec 6} {i : Instr}
    (hdec : decodeMicro (microWord op idx) = .ok i) (hrun : RunOf M s)
    (hstage : Stage M (s.goto op idx) i) : Dataflow M (s.goto op idx) :=
  (dataflow_iff ((congrArg decodeMicro (State.goto_uop s op idx)).trans hdec)).2
    ⟨hrun.congr rfl rfl rfl, hstage⟩

/-- The end of `PAD`: the run begins with the message that was read. -/
theorem dataflow_afterPad {M : List Byte} {s : State} (hfits : 8 * M.length ≤ 2 ^ 64 - 1)
    (hlen : s.mlen.toNat = M.length) (hH : s.H = IV) (hblk : s.blk = 0) :
    Dataflow M (s.afterPad M) := by
  have hfirst : s.H = chain (padBytes M) s.blk.toNat := by
    rw [hH, hblk]
    rfl
  exact dataflow_goto (i := .ldblk) rfl ⟨hfits, hlen, afterPad_nblk_toNat s hfits, holds_afterPad_pm s M⟩
    hfirst

/-- Stated for every `w`, which the unifier then has no reason to evaluate. -/
theorem stage_sched {M : List Byte} {s : State} {w : Vector Word 64} {k : BitVec 6}
    (hH : s.H = chain (padBytes M) s.blk.toNat)
    (hw : ∀ j (h : j < 64), j < k.toNat →
      w[j] = (schedule (blockWords (padBytes M) s.blk.toNat))[j]) :
    Stage M (State.goto { s with W := w } Op.sched k) (.sched k) := ⟨hH, hw⟩

theorem execLdblk_dataflow {M : List Byte} {s t : State} (hrun : RunOf M s)
    (hblk : s.blk.toNat < s.nblk.toNat) (hH : s.H = chain (padBytes M) s.blk.toNat)
    (h : execLdblk s = .next t) : Dataflow M t := by
  obtain ⟨-, block, hread, rfl⟩ := execLdblk_next h
  have hlen := block_le_padBytes_length (hrun.nblk_eq ▸ hblk)
  have hblock : block = blockWords (padBytes M) s.blk.toNat :=
    Option.some_inj.1 (hread.symm.trans (readWords_of_holds hrun.pm_eq hlen))
  have hlow : ∀ j (h : j < 64), j < (16 : BitVec 6).toNat → (setLowWords s.W block)[j] =
      (schedule (blockWords (padBytes M) s.blk.toNat))[j] := fun j hj h16 => by
    rw [← hblock]
    exact (schedule_getElem_low s.W (readWords_length hread) hj h16).symm
  exact dataflow_goto (decodeMicro_microWord_sched (le_refl 16)) (hrun.congr rfl rfl rfl)
    (stage_sched hH hlow)

theorem execSched_dataflow {M : List Byte} {s t : State} {k : BitVec 6} (hrun : RunOf M s)
    (hH : s.H = chain (padBytes M) s.blk.toNat)
    (hW : ∀ j (h : j < 64), j < k.toNat →
      s.W[j] = (schedule (blockWords (padBytes M) s.blk.toNat))[j])
    (h : execSched k s = .next t) : Dataflow M t := by
  obtain ⟨h16, rfl⟩ := execSched_next h
  have hnext := fun j (hj : j < 64) => set_scheduleWord_getElem (j := j) k.isLt h16 hW hj
  by_cases hk : k.toNat < 63
  · have hsucc : (k + 1).toNat = k.toNat + 1 := by bv_omega
    rw [if_pos hk, if_pos hk]
    exact dataflow_goto (decodeMicro_microWord_sched (by omega)) (hrun.congr rfl rfl rfl)
      (stage_sched hH fun j hj hlt => hnext j hj (hsucc ▸ hlt))
  · rw [if_neg hk, if_neg hk]
    exact dataflow_goto (i := .initwv) rfl (hrun.congr rfl rfl rfl)
      ⟨hH, Vector.ext fun j hj => hnext j hj (by omega)⟩

theorem execInitwv_dataflow {M : List Byte} {s t : State} (hrun : RunOf M s)
    (hH : s.H = chain (padBytes M) s.blk.toNat)
    (hW : s.W = schedule (blockWords (padBytes M) s.blk.toNat)) (h : execInitwv s = .next t) :
    Dataflow M t := by
  cases execInitwv_next h
  exact dataflow_goto (decodeMicro_microWord_round 0) (hrun.congr rfl rfl rfl) ⟨hH, hW, rfl⟩

theorem execRound_dataflow {M : List Byte} {s t : State} {k : BitVec 6} (hrun : RunOf M s)
    (hH : s.H = chain (padBytes M) s.blk.toNat)
    (hW : s.W = schedule (blockWords (padBytes M) s.blk.toNat))
    (hwv : s.wv = rounds (WorkingState.ofVector s.H) s.W k.toNat) (h : execRound k s = .next t) :
    Dataflow M t := by
  cases execRound_next h
  have hnext : compressRound s.wv (K[k.toNat]'k.isLt) (s.W[k.toNat]'k.isLt) =
      rounds (WorkingState.ofVector s.H) s.W (k.toNat + 1) := by
    rw [rounds, dif_pos k.isLt, ← hwv]
  by_cases hk : k.toNat < 63
  · have hsucc : (k + 1).toNat = k.toNat + 1 := by bv_omega
    rw [if_pos hk, if_pos hk]
    rw [← hsucc] at hnext
    exact dataflow_goto (decodeMicro_microWord_round (k + 1)) (hrun.congr rfl rfl rfl) ⟨hH, hW, hnext⟩
  · have hlast : k.toNat + 1 = 64 := by omega
    rw [hlast] at hnext
    rw [if_neg hk, if_neg hk]
    exact dataflow_goto (i := .addback) rfl (hrun.congr rfl rfl rfl) ⟨hH, hW, hnext⟩

theorem execAddback_dataflow {M : List Byte} {s t : State} (hrun : RunOf M s)
    (hblk : s.blk.toNat < s.nblk.toNat) (hH : s.H = chain (padBytes M) s.blk.toNat)
    (hW : s.W = schedule (blockWords (padBytes M) s.blk.toNat))
    (hwv : s.wv = rounds (WorkingState.ofVector s.H) s.W 64) (h : execAddback s = .next t) :
    Dataflow M t := by
  have hnext : addBack s.H s.wv = chain (padBytes M) (s.blk.toNat + 1) := by
    rw [chain, ← hW, ← hH, compress, ← hwv]
  cases execAddback_next h
  by_cases hlt : s.blk.toNat + 1 < s.nblk.toNat
  · have hsucc : (BitVec.ofNat Config.blkw (s.blk.toNat + 1)).toNat = s.blk.toNat + 1 :=
      Nat.mod_eq_of_lt (hlt.trans s.nblk.isLt)
    rw [← hsucc] at hnext
    rw [if_pos hlt]
    exact dataflow_goto (i := .ldblk) rfl (hrun.congr rfl rfl rfl) hnext
  · have hlast : s.blk.toNat + 1 = blockCount M.length := by
      rw [← hrun.nblk_eq]
      omega
    rw [hlast] at hnext
    rw [if_neg hlt]
    exact dataflow_goto (i := .digest) rfl (hrun.congr rfl rfl rfl) hnext

theorem execDigest_dataflow {M : List Byte} {s t : State} (hrun : RunOf M s)
    (hH : s.H = chain (padBytes M) (blockCount M.length)) (h : execDigest s = .next t) :
    Dataflow M t := by
  obtain ⟨bs, draws, hlen, hstable, rfl⟩ := execDigest_written h
  refine dataflow_goto (i := .halt) rfl (hrun.congr rfl rfl rfl) fun hmark => ?_
  have hbs : bs = hashOf M := by
    rw [hstable hmark, hH, hashOf]
  rw [← hbs]
  exact readBytes_length_eq_some.1 (Memory.readBytes_writeBytes s.dg 0 bs)

/-- From the end of `PAD` on the state is that of a run. -/
def InRun (s : State) : Prop := s.phase = some .perBlockProcessing ∨ s.phase = some .done

/-- `t` is in a run, and it is the run of every message whose run `s` is in. -/
structure KeepsRun (s t : State) : Prop where
  inRun : InRun t
  dataflow : ∀ M, Dataflow M s → Dataflow M t
  pm_eq : t.pm = s.pm
  plen_eq : t.plen = s.plen
  nblk_eq : t.nblk = s.nblk
  mlen_eq : t.mlen = s.mlen

theorem inRun_goto {s : State} {op : BitVec 4} {idx : BitVec 6}
    (hop : phaseOf op = some .perBlockProcessing ∨ phaseOf op = some .done) : InRun (s.goto op idx) := by
  rwa [InRun, State.phase_goto]

/-- In a run `UOP` holds none of `WAIT`, `PAD` and `FHALT`. -/
theorem not_inRun {s : State} {p : Phase} (hphase : s.phase = some p) (hp : p ≠ .perBlockProcessing)
    (hd : p ≠ .done) : ¬ InRun s := by
  rw [InRun, hphase]
  simp [hp, hd]

theorem exec_keeps_inRun {s t : State} {i : Instr} (hrun : InRun s) (hdec : decodeMicro s.uop = .ok i)
    (h : exec i s = .next t) : InRun t := by
  cases i with
  | ldblk => obtain ⟨-, _, -, rfl⟩ := execLdblk_next h; exact inRun_goto (.inl rfl)
  | sched k =>
    obtain ⟨-, rfl⟩ := execSched_next h
    exact inRun_goto (.inl (by split <;> rfl))
  | initwv => cases execInitwv_next h; exact inRun_goto (.inl rfl)
  | round k =>
    cases execRound_next h
    exact inRun_goto (.inl (by split <;> rfl))
  | addback =>
    cases execAddback_next h
    refine inRun_goto ?_
    split
    · exact .inl rfl
    · exact .inr rfl
  | digest => obtain ⟨bs, draws, -, -, rfl⟩ := execDigest_written h; exact inRun_goto (.inr rfl)
  | halt => cases h; exact inRun_goto (.inr rfl)
  | wait | pad | fhalt =>
    exact absurd hrun (not_inRun (State.phase_of_op (opOf_of_decodeMicro hdec rfl) rfl) (by decide)
      (by decide))
  | start len => cases (decodeMicro_ok hdec).1
  | clear => cases (decodeMicro_ok hdec).1

/-- A micro-operation of a run carries it to its next stage. -/
theorem exec_keeps_dataflow {M : List Byte} {s t : State} {i : Instr} (hs : Inv s) (hrun : InRun s)
    (hdec : decodeMicro s.uop = .ok i) (hd : Dataflow M s) (h : exec i s = .next t) : Dataflow M t := by
  obtain ⟨hof, hstage⟩ := (dataflow_iff hdec).1 hd
  cases i with
  | ldblk =>
    have hphase := State.phase_of_op (opOf_of_decodeMicro hdec rfl) rfl
    exact execLdblk_dataflow hof (hs.blk_lt hphase) hstage h
  | sched k =>
    obtain ⟨hH, hW⟩ := hstage
    exact execSched_dataflow hof hH hW h
  | initwv =>
    obtain ⟨hH, hW⟩ := hstage
    exact execInitwv_dataflow hof hH hW h
  | round k =>
    obtain ⟨hH, hW, hwv⟩ := hstage
    exact execRound_dataflow hof hH hW hwv h
  | addback =>
    obtain ⟨hH, hW, hwv⟩ := hstage
    have hphase := State.phase_of_op (opOf_of_decodeMicro hdec rfl) rfl
    exact execAddback_dataflow hof (hs.blk_lt hphase) hH hW hwv h
  | digest => exact execDigest_dataflow hof hstage h
  | halt =>
    cases (exec_at_rest (.inl (uop_of_decodeMicro hdec rfl)) hdec).symm.trans h
    exact hd
  | wait | pad | fhalt =>
    exact absurd hrun (not_inRun (State.phase_of_op (opOf_of_decodeMicro hdec rfl) rfl) (by decide)
      (by decide))
  | start len => cases (decodeMicro_ok hdec).1
  | clear => cases (decodeMicro_ok hdec).1

theorem exec_keepsRun {s t : State} {i : Instr} (hs : Inv s) (hrun : InRun s)
    (hdec : decodeMicro s.uop = .ok i) (h : exec i s = .next t) : KeepsRun s t := by
  have hclear : i ≠ .clear := by
    rintro rfl
    cases (decodeMicro_ok hdec).1
  have hstart : ∀ len, i ≠ .start len := by
    rintro len rfl
    cases (decodeMicro_ok hdec).1
  have hpad : i ≠ .pad := by
    rintro rfl
    exact not_inRun (State.phase_of_op (opOf_of_decodeMicro hdec rfl) rfl) (by decide) (by decide) hrun
  obtain ⟨-, -, -, -, hnblk, hmlen, -⟩ := whoWritesWhichRegister i s t h hclear
  obtain ⟨-, hpm, -⟩ := exec_byteSpaces h hclear
  obtain ⟨hnblk, hplen⟩ := hnblk hpad
  exact ⟨exec_keeps_inRun hrun hdec h, fun M hd => exec_keeps_dataflow hs hrun hdec hd h, hpm hpad,
    hplen, hnblk, hmlen hstart⟩

/-! ### The host's moves during a run -/

theorem dataflow_hostSide {M : List Byte} {s : State} (hd : Dataflow M s) (moves : List HostMove)
    (seen : Option Observation) (draws : Nat) :
    Dataflow M { s with moves := moves, seen := seen, draws := draws } :=
  ⟨hd.fits, hd.mlen_eq, hd.nblk_eq, hd.pm_eq, hd.ldblk, hd.sched, hd.initwv, hd.round, hd.addback,
    hd.digest, hd.halt⟩

theorem keepsRun_hostSide {s : State} (hrun : InRun s) (moves : List HostMove)
    (seen : Option Observation) (draws : Nat) :
    KeepsRun s { s with moves := moves, seen := seen, draws := draws } :=
  ⟨hrun, fun _ hd => dataflow_hostSide hd moves seen draws, rfl, rfl, rfl, rfl⟩

theorem KeepsRun.trans {r s t : State} (hrs : KeepsRun r s) (hst : KeepsRun s t) : KeepsRun r t :=
  ⟨hst.inRun, fun M hd => hst.dataflow M (hrs.dataflow M hd), hst.pm_eq.trans hrs.pm_eq,
    hst.plen_eq.trans hrs.plen_eq, hst.nblk_eq.trans hrs.nblk_eq, hst.mlen_eq.trans hrs.mlen_eq⟩

/-- A message write marks the run, and nothing is claimed of `DG` in a marked one. -/
theorem keepsRun_writeDuringRun {s : State} (hrun : InRun s) (a : Nat) :
    KeepsRun s (writeDuringRun s a) :=
  ⟨hrun, fun _ hd => ⟨hd.fits, hd.mlen_eq, hd.nblk_eq, hd.pm_eq, hd.ldblk, hd.sched, hd.initwv, hd.round,
    hd.addback, hd.digest, fun _ hmark => absurd (show true = false from hmark) (by decide)⟩,
    rfl, rfl, rfl, rfl⟩

/-- During a run a message write is outside Init. -/
theorem hostWriteMessage_keepsRun {s t : State} {a : Nat} {b : Byte} (hrun : InRun s)
    (h : hostWriteMessage a b s = .next t) : KeepsRun s t := by
  obtain ⟨-, ⟨hinit, -⟩ | ⟨-, rfl⟩⟩ := hostWriteMessage_next h
  · exact absurd hrun (not_inRun hinit (by decide) (by decide))
  · exact keepsRun_writeDuringRun hrun a

theorem execStart_keepsRun {s t : State} {len : BitVec Config.lenw} (hrun : InRun s)
    (h : execStart len s = .next t) : KeepsRun s t := by
  rcases execStart_next h with ⟨hwait, -⟩ | ⟨-, rfl⟩
  · exact absurd hrun (not_inRun (State.status_of_wait hwait).1 (by decide) (by decide))
  · exact ⟨hrun, fun _ hd => hd, rfl, rfl, rfl, rfl⟩

/-- A step from within a run keeps the run, or is `CLEAR` or reset. -/
theorem step_keepsRun {s t : State} (hs : Inv s) (hrun : InRun s) (h : step s = .next t) :
    KeepsRun s t ∨ t.phase = some .init := by
  have htake : ∀ ms, KeepsRun s { s with moves := ms } := fun ms =>
    keepsRun_hostSide hrun ms s.seen s.draws
  have hinv : ∀ ms, Inv { s with moves := ms } := fun ms => inv_hostSide hs ms s.seen s.draws
  cases stepCase_of_next h with
  | micro i ms hdec ho => exact .inl ((htake ms).trans (exec_keepsRun (hinv ms) hrun hdec ho))
  | start len ms ho =>
    exact .inl ((htake ms).trans (execStart_keepsRun (s := { s with moves := ms }) hrun ho))
  | clear m rest ms hmoves hclear ho =>
    cases ho
    exact .inr (State.status_of_wait rfl).1
  | nothing ms ho =>
    cases ho
    exact .inl (htake ms)
  | write a b rest hmoves ho =>
    exact .inl ((htake rest).trans (hostWriteMessage_keepsRun (s := { s with moves := rest }) hrun ho))
  | readStatus rest hmoves ho =>
    rw [hostReadStatus_frame ho]
    exact .inl (keepsRun_hostSide hrun _ _ _)
  | readDigest n rest hmoves ho =>
    rw [hostReadDigest_frame ho]
    exact .inl (keepsRun_hostSide hrun _ _ _)

/-! ### Before a run -/

/-- In Init and in Fault the invariant of a run claims nothing. -/
theorem runInv_of_phase {s : State} {p : Phase} (hphase : s.phase = some p)
    (hp : p = .init ∨ p = .fault) : RunInv s := by
  rcases hp with rfl | rfl <;> simp [RunInv, hphase]

theorem runInv_of_padding {s : State} (hphase : s.phase = some .padding) (hH : s.H = IV) : RunInv s := by
  simp [RunInv, hphase, hH]

/-- Settles O52: the phase is Init. -/
theorem runInvAtReset : Obligations.RunInvAtReset :=
  runInv_of_phase (State.status_of_wait rfl).1 (.inl rfl)

theorem runInv_hostSide {s : State} (hs : RunInv s) (moves : List HostMove) (seen : Option Observation)
    (draws : Nat) : RunInv { s with moves := moves, seen := seen, draws := draws } := by
  obtain ⟨hpadding, hrun⟩ := hs
  exact ⟨hpadding, fun hphase => (hrun hphase).imp fun M hd => dataflow_hostSide hd moves seen draws⟩

/-- The phases before a run, from the invariant of the sequencer. -/
theorem phase_of_not_inRun {s : State} (hs : Inv s) (hrun : ¬ InRun s) :
    s.phase = some .init ∨ s.phase = some .padding ∨ s.phase = some .fault := by
  obtain ⟨p, hphase⟩ := State.exists_phase_of_legalUop hs.legal
  rw [InRun, hphase] at hrun
  rw [hphase]
  cases p <;> simp_all

/-- `PAD` begins the run of the message it reads, or raises. -/
theorem execPad_runInv {s t : State} (hs : Inv s) (hrun : RunInv s) (hphase : s.phase = some .padding)
    (h : execPad s = .next t) : RunInv t := by
  by_cases hfits : 8 * s.mlen.toNat ≤ 2 ^ 64 - 1
  · obtain ⟨M, hlen, -, rfl⟩ := execPad_next_of_fits hfits h
    have hd : Dataflow M (s.afterPad M) :=
      dataflow_afterPad (hlen ▸ hfits) hlen (hrun.1 hphase) (hs.blk_before (.inr hphase))
    have hnext : (s.afterPad M).phase = some .perBlockProcessing := State.phase_goto ..
    exact ⟨fun hp => by simp [hnext] at hp, fun _ => ⟨M, hd⟩⟩
  · cases (execPad_of_overflow (Nat.lt_of_not_le hfits)).symm.trans h
    exact runInv_of_phase (State.status_of_fhalt rfl).1 (.inr rfl)

theorem exec_runInv_of_not_inRun {s t : State} {i : Instr} (hs : Inv s) (hrun : RunInv s)
    (hout : ¬ InRun s) (hdec : decodeMicro s.uop = .ok i) (h : exec i s = .next t) : RunInv t := by
  have hword : ∀ {op : BitVec 4} {idx : BitVec 6} {p : Option Phase},
      encode i = .micro (microWord op idx) → phaseOf op = p → s.phase = p := fun henc hp =>
    State.phase_of_op (opOf_of_decodeMicro hdec henc) hp
  cases i with
  | wait => cases h; exact runInv_of_phase (State.status_of_wait rfl).1 (.inl rfl)
  | pad => exact execPad_runInv hs hrun (hword rfl rfl) h
  | fhalt => cases h; exact runInv_of_phase (State.status_of_fhalt rfl).1 (.inr rfl)
  | ldblk | sched k | initwv | round k | addback => exact absurd (.inl (hword rfl rfl)) hout
  | digest | halt => exact absurd (.inr (hword rfl rfl)) hout
  | start len => cases (decodeMicro_ok hdec).1
  | clear => cases (decodeMicro_ok hdec).1

theorem execStart_runInv {s t : State} {len : BitVec Config.lenw} (hrun : RunInv s)
    (h : execStart len s = .next t) : RunInv t := by
  rcases execStart_next h with ⟨-, rfl⟩ | ⟨-, rfl⟩
  · exact runInv_of_padding (State.phase_goto ..) rfl
  · exact hrun

/-- Before a run a message write leaves the phase and `H`. -/
theorem hostWriteMessage_runInv {s t : State} {a : Nat} {b : Byte} (hs : Inv s) (hrun : RunInv s)
    (hout : ¬ InRun s) (h : hostWriteMessage a b s = .next t) : RunInv t := by
  have hframe := (hostWriteMessage_frame h).1
  have hphase : t.phase = s.phase := by
    rw [hframe]
    rfl
  have hH : t.H = s.H := by rw [hframe]
  rcases phase_of_not_inRun hs hout with hp | hp | hp
  · exact runInv_of_phase (hphase.trans hp) (.inl rfl)
  · exact runInv_of_padding (hphase.trans hp) (hH.trans (hrun.1 hp))
  · exact runInv_of_phase (hphase.trans hp) (.inr rfl)

theorem step_runInv_of_not_inRun {s t : State} (hs : Inv s) (hrun : RunInv s) (hout : ¬ InRun s)
    (h : step s = .next t) : RunInv t := by
  have hinv : ∀ ms, Inv { s with moves := ms } := fun ms => inv_hostSide hs ms s.seen s.draws
  have htake : ∀ ms, RunInv { s with moves := ms } := fun ms => runInv_hostSide hrun ms s.seen s.draws
  cases stepCase_of_next h with
  | micro i ms hdec ho => exact exec_runInv_of_not_inRun (hinv ms) (htake ms) hout hdec ho
  | start len ms ho => exact execStart_runInv (htake ms) ho
  | clear m rest ms hmoves hclear ho =>
    cases ho
    exact runInv_of_phase (State.status_of_wait rfl).1 (.inl rfl)
  | nothing ms ho =>
    cases ho
    exact htake ms
  | write a b rest hmoves ho => exact hostWriteMessage_runInv (hinv rest) (htake rest) hout ho
  | readStatus rest hmoves ho =>
    rw [hostReadStatus_frame ho]
    exact runInv_hostSide hrun _ _ _
  | readDigest n rest hmoves ho =>
    rw [hostReadDigest_frame ho]
    exact runInv_hostSide hrun _ _ _

/-- Settles O53: within a run by `step_keepsRun`, before it by `step_runInv_of_not_inRun`. -/
theorem stepKeepsRunInv : Obligations.StepKeepsRunInv := by
  intro s t hs hrun h
  by_cases hin : InRun s
  · rcases step_keepsRun hs hin h with hkeeps | hinit
    · obtain ⟨M, hd⟩ := hrun.2 hin
      have hpadding : t.phase = some .padding → t.H = IV := fun hp =>
        absurd hkeeps.inRun (not_inRun hp (by decide) (by decide))
      exact ⟨⟨hpadding, fun _ => ⟨M, hkeeps.dataflow M hd⟩⟩, fun _ =>
        ⟨fun _ => ⟨hkeeps.dataflow, hkeeps.pm_eq, hkeeps.plen_eq, hkeeps.nblk_eq, hkeeps.mlen_eq⟩,
          fun hblock hdone => absurd hkeeps.inRun (not_or.2 ⟨hblock, hdone⟩)⟩⟩
    · exact ⟨runInv_of_phase hinit (.inl rfl), fun _ =>
        ⟨fun hnext => absurd hnext (not_inRun hinit (by decide) (by decide)), fun _ _ => hinit⟩⟩
  · exact ⟨step_runInv_of_not_inRun hs hrun hin h, fun hphase => absurd hphase hin⟩

end Sys2Proof.Machine
end

section
/-! PROOFS. The constants (R28, R29): the primes up to 311 by trial division, and each table word as the
first 32 bits of the fractional part of a root. -/

namespace Sys2Proof.Machine

open Sys2Proof.Safety

/-! ### The primes up to 311 -/

/-- No listed number has a divisor from 2 to 17 but itself. -/
theorem firstPrimes_trialDivision :
    ∀ p ∈ firstPrimes, 2 ≤ p ∧ p < 18 ^ 2 ∧ ∀ q < 18, 2 ≤ q → q ∣ p → q = p := by
  decide

/-- Below `18²` trial division up to 17 is enough. -/
theorem prime_of_mem_firstPrimes : ∀ p ∈ firstPrimes, Nat.Prime p := by
  intro p hp
  obtain ⟨h2, hlt, htrial⟩ := firstPrimes_trialDivision p hp
  refine Nat.prime_def_le_sqrt.2 ⟨h2, fun q hq hle hdvd => ?_⟩
  have hself : q = p := htrial q (hle.trans_lt (Nat.sqrt_lt'.2 hlt)) hq hdvd
  exact absurd (hself ▸ hle) (Nat.not_le.2 (Nat.sqrt_lt_self h2))

/-- Some number from 2 to 17, smaller than `n`, divides `n`. -/
def hasSmallDivisor (n : Nat) : Bool :=
  (List.range 18).any fun q => decide (2 ≤ q) && decide (q < n) && decide (q ∣ n)

theorem hasSmallDivisor_iff {n : Nat} :
    hasSmallDivisor n = true ↔ ∃ q < 18, (2 ≤ q ∧ q < n) ∧ q ∣ n := by
  simp [hasSmallDivisor]

/-- The numbers up to 311 stand in 13 rows of 24. -/
theorem hasSmallDivisor_of_not_mem : ∀ r < 13, ∀ i < 24,
    24 * r + i < 2 ∨ hasSmallDivisor (24 * r + i) = true ∨ 24 * r + i ∈ firstPrimes := by
  decide

theorem mem_firstPrimes_of_prime {p : Nat} (hle : p ≤ 311) (hp : Nat.Prime p) : p ∈ firstPrimes := by
  have hrow := hasSmallDivisor_of_not_mem (p / 24) (by omega) (p % 24) (by omega)
  rw [Nat.div_add_mod] at hrow
  rcases hrow with hlt | hdiv | hmem
  · exact absurd hp.two_le (Nat.not_le.2 hlt)
  · obtain ⟨q, -, ⟨h2, hlt⟩, hdvd⟩ := hasSmallDivisor_iff.1 hdiv
    rcases hp.eq_one_or_self_of_dvd q hdvd with rfl | rfl
    · exact absurd h2 (by decide)
    · exact absurd hlt (lt_irrefl _)
  · exact hmem

/-! ### The roots -/

/-- R28: `q` is the whole part of the cube root. -/
theorem K_roots : ∀ t (h : t < 64), ∃ q, q < 7 ∧
    (q * 2 ^ 32 + K[t].toNat) ^ 3 ≤ firstPrimes.getD t 0 * 2 ^ 96 ∧
    firstPrimes.getD t 0 * 2 ^ 96 < (q * 2 ^ 32 + K[t].toNat + 1) ^ 3 := by
  decide

/-- R29: `q` is the whole part of the square root. -/
theorem IV_roots : ∀ i (h : i < 8), ∃ q, q < 5 ∧
    (q * 2 ^ 32 + IV[i].toNat) ^ 2 ≤ firstPrimes.getD i 0 * 2 ^ 64 ∧
    firstPrimes.getD i 0 * 2 ^ 64 < (q * 2 ^ 32 + IV[i].toNat + 1) ^ 2 := by
  decide

/-- Settles O17: the primes by trial division, the roots word by word. -/
theorem constantsFromRoots : Obligations.ConstantsFromRoots :=
  ⟨rfl, prime_of_mem_firstPrimes, by decide, fun _ => mem_firstPrimes_of_prime, K_roots, IV_roots⟩

end Sys2Proof.Machine
end
